-- ==== Sys2Proof/Word.lean ====
section
/-! DEFINITION. The 32-bit word of the block's interface and datapath (00_scope.md R6, R8). -/

namespace Sys2Proof

/-- One 32-bit word: a CMD, DATA or RESP word, a parameter register, or a binary32 pattern (R6, R80).
Bit 0 is the least significant bit (R8), as `BitVec.getLsbD` numbers them. -/
abbrev Word := BitVec 32

end Sys2Proof
end

