-- ==== Sys2Proof/Config.lean ====
section
/-! DEFINITION. The implementation parameters of 00_scope.md R7. Every one is fixed by the spec, none is left
open to a model (R7), so this file holds no free value. The one open parameter of the block, SCHEDULE
(92_eei_decisions.md D23), is plain data of `State`. -/

namespace Sys2Proof.Config

/-- NUM_CHANNELS (R5, R7). `Channel` of Syntax.lean has one constructor for each. -/
abbrev numChannels : Nat := 2
/-- SAMPLE_BITS (R6, R7): the width of `Word`. -/
abbrev sampleBits : Nat := 32
/-- DS_FACTOR range and default (R7, R35). -/
abbrev dsFactorMin : Nat := 1
abbrev dsFactorMax : Nat := 16
abbrev dsFactorDefault : Word := 1#32
/-- BIT_DEPTH range and default (R7, R36). -/
abbrev bitDepthMin : Nat := 2
abbrev bitDepthMax : Nat := 24
abbrev bitDepthDefault : Word := 24#32
/-- CRUSH_METHOD default: 0 is "QL" (R7, R37). -/
abbrev crushMethodDefault : Word := 0#32
/-- MASKS_ENABLED default: true (R7, R38). -/
abbrev masksEnabledDefault : Word := 1#32
/-- MASK_COUNT and the default of every MASK_k: false (R7, R39). -/
abbrev maskCount : Nat := 32
abbrev maskDefault : Word := 0#32
/-- The ends of the MIX range, −1.0 and +1.0 as binary32 words, and the default +1.0 (R7, R34). -/
abbrev mixMin : Word := 0xBF800000#32
abbrev mixMax : Word := 0x3F800000#32
abbrev mixDefault : Word := 0x3F800000#32
/-- TRUNC_BIAS: the Truncate shift is 27 − bitDepth (R7, R134). -/
abbrev truncBias : Nat := 27
/-- The width of a phase counter (R7, R45). -/
abbrev phaseBits : Nat := 4
/-- The width of a parameter id: 64 ids (R7, R50). -/
abbrev pidBits : Nat := 6

end Sys2Proof.Config
end

