-- ==== Sys2Proof/Machine/Flags.lean ====
section
/-! DEFINITION. The block has no status flags, condition codes or predicates (10_state.md R33), so there is no flag
computation to model. What a machine's flags would report, the class of a binary32 word, the stages test for
themselves and record nowhere; those tests stand here (00_scope.md R12). -/

namespace Sys2Proof.Machine

/-- The sign b[31] (R12). -/
def signBit (b : Word) : Bool := b.getLsbD 31
/-- The biased exponent E = b[30:23] (R12). -/
def expField (b : Word) : Nat := (b.extractLsb' 23 8).toNat
/-- The fraction M = b[22:0] (R12). -/
def fracField (b : Word) : Nat := (b.extractLsb' 0 23).toNat

/-- 1 ≤ E ≤ 254 (R12). -/
def isNormal (b : Word) : Bool := decide (1 ≤ expField b) && decide (expField b ≤ 254)
/-- E = 0 and M = 0 (R12). -/
def isZero (b : Word) : Bool := expField b == 0 && fracField b == 0
/-- E = 0 and M ≠ 0 (R12). -/
def isSubnormal (b : Word) : Bool := expField b == 0 && fracField b != 0
/-- E = 255 and M = 0 (R12). -/
def isInf (b : Word) : Bool := expField b == 255 && fracField b == 0
/-- E = 255 and M ≠ 0 (R12). -/
def isNaN (b : Word) : Bool := expField b == 255 && fracField b != 0
/-- A NaN with b[22] = 1 (R12). -/
def isQuietNaN (b : Word) : Bool := isNaN b && b.getLsbD 22
/-- A NaN with b[22] = 0 (R12). -/
def isSignalingNaN (b : Word) : Bool := isNaN b && !b.getLsbD 22
/-- Neither an infinity nor a NaN. -/
def isFinite (b : Word) : Bool := expField b != 255

end Sys2Proof.Machine
end

