-- ==== Sys2Proof/Machine/Binary32.lean ====
section
/-! DEFINITION. The binary32 primitives of 00_scope.md R12 to R19, computed exactly on integers and rounded once.
A finite word's value is held as a whole number of units of 2^−149, the smallest subnormal; every finite binary32
value is such a number. DEDUCED from R12, safe: log entry 6. -/

namespace Sys2Proof.Machine

/-- QNAN (R13). -/
def qnan : Word := 0x7FC00000#32
/-- The zero of a sign (R12). -/
def zeroOf (neg : Bool) : Word := if neg then 0x80000000#32 else 0x00000000#32
/-- The infinity of a sign (R12). -/
def infOf (neg : Bool) : Word := if neg then 0xFF800000#32 else 0x7F800000#32

/-- |real(b)| of a finite word, in units of 2^−149 (the value formulas of R12). -/
def mag (b : Word) : Nat :=
  if expField b = 0 then fracField b else (2 ^ 23 + fracField b) * 2 ^ (expField b - 1)

/-- real(b) of a finite word, in units of 2^−149 (R12). -/
def units (b : Word) : Int := if signBit b then -(mag b : Int) else (mag b : Int)

/-- The integer nearest num/den, the even one on a tie (R14). -/
def roundHalfEven (num den : Nat) : Nat :=
  let q := num / den
  let r := num % den
  if 2 * r < den then q else if den < 2 * r then q + 1 else q + q % 2

/-- RN32 of the magnitude (num/den) · 2^−149, as the low 31 bits of a word (R14). With q the whole units, the quantum
is 2^k units, k = e − 23 + 149 for R14's e; n quanta are the word k · 2^23 + n, and from 0x7F800000 on the result is
the infinity (n · u ≥ 2^128). -/
def rnMag (num den : Nat) : Nat :=
  let k := Nat.log2 (num / den) - 23
  min (k * 2 ^ 23 + roundHalfEven num (den * 2 ^ k)) 0x7F800000

/-- RN32 of ±(num/den) · 2^−149 (R14). -/
def rn32 (neg : Bool) (num den : Nat) : Word :=
  BitVec.ofNat 32 (rnMag num den + if neg then 2 ^ 31 else 0)

/-- DAZ (R15): a subnormal becomes the zero of its sign. -/
def daz (b : Word) : Word := if isSubnormal b then zeroOf (signBit b) else b

/-- FTZ (R15): the same function applied to a result. -/
def ftz (b : Word) : Word := daz b

/-- Mul32 on operands that have gone through DAZ (R16). -/
def mulDazed (a b : Word) : Word :=
  let s := signBit a != signBit b
  if isNaN a || isNaN b then qnan
  else if isInf a && isZero b || isZero a && isInf b then qnan
  else if isInf a || isInf b then infOf s
  else if isZero a || isZero b then zeroOf s
  else ftz (rn32 s (mag a * mag b) (2 ^ 149))

/-- Mul32(a, b) (R16). -/
def mul32 (a b : Word) : Word := mulDazed (daz a) (daz b)

/-- Div32 on operands that have gone through DAZ (R17). -/
def divDazed (a b : Word) : Word :=
  let s := signBit a != signBit b
  if isNaN a || isNaN b then qnan
  else if isInf a && isInf b || isZero a && isZero b then qnan
  else if isInf a || isZero b then infOf s
  else if isInf b || isZero a then zeroOf s
  else ftz (rn32 s (mag a * 2 ^ 149) (mag b))

/-- Div32(a, b) (R17). -/
def div32 (a b : Word) : Word := divDazed (daz a) (daz b)

/-- Add32 on operands that have gone through DAZ (R18). -/
def addDazed (a b : Word) : Word :=
  if isNaN a || isNaN b then qnan
  else if isInf a && isInf b && signBit a != signBit b then qnan
  else if isInf a then a
  else if isInf b then b
  else
    let r := units a + units b
    if r = 0 then zeroOf (isZero a && signBit a && isZero b && signBit b)
    else ftz (rn32 (decide (r < 0)) r.natAbs 1)

/-- Add32(a, b) (R18). -/
def add32 (a b : Word) : Word := addDazed (daz a) (daz b)

/-- trunc(real(b)) of a finite word: the integer nearest it in the direction of zero (R11). -/
def truncInt (b : Word) : Int :=
  if signBit b then -((mag b / 2 ^ 149 : Nat) : Int) else ((mag b / 2 ^ 149 : Nat) : Int)

/-- F32(k) (R19): the word of value k, and +0 for k = 0. -/
def f32OfInt (k : Int) : Word :=
  if k = 0 then 0x00000000#32 else rn32 (decide (k < 0)) (k.natAbs * 2 ^ 149) 1

end Sys2Proof.Machine
end

