-- ==== Sys2Proof/Machine/Operands.lean ====
section
/-! DEFINITION. How a command's operands are read (30_encoding.md R83): the parameter a PID names (10_state.md R50), DATA as
a signed integer (00_scope.md R9), and the two clamps of the parameter store (41_parameter_store.md R101, R102). -/

namespace Sys2Proof.Machine

/-- What a parameter id names (R50): one of the registers of R34 to R39, or a reserved id. -/
inductive ParamId where
  | mix
  | dsFactor
  | bitDepth
  | crushMethod
  | masksEnabled
  | mask (k : Fin Config.maskCount)
  /-- 0x05..0x1F (R88). -/
  | reserved
  deriving DecidableEq, Repr

/-- The parameter id map (R50): 0x20 + k is MASK[k], so k is the low five bits. -/
def paramId (pid : BitVec 6) : ParamId :=
  if pid = 0x00#6 then .mix
  else if pid = 0x01#6 then .dsFactor
  else if pid = 0x02#6 then .bitDepth
  else if pid = 0x03#6 then .crushMethod
  else if pid = 0x04#6 then .masksEnabled
  else if pid < 0x20#6 then .reserved
  else .mask (pid.extractLsb' 0 5).toFin

/-- sint32(w) (R9). -/
def sint32 (w : Word) : Int := w.toInt

/-- word(n) (R9). -/
def word (n : Int) : Word := BitVec.ofInt 32 n

/-- ClampInt(s, lo, hi) = min(max(s, lo), hi) (R101). -/
def clampInt (s lo hi : Int) : Int := min (max s lo) hi

/-- ClampInt of a DATA word read as sint32, as the word to store (R100, R101). -/
def clampWord (data : Word) (lo hi : Int) : Word := word (clampInt (sint32 data) lo hi)

/-- ClampMix(d) (R102); `none` is DROP. No DAZ: a word in range is returned as it is. -/
def clampMix (d : Word) : Option Word :=
  if isNaN d then none
  else if !signBit d && (isInf d || decide (2 ^ 149 < mag d)) then some Config.mixMax
  else if signBit d && (isInf d || decide (2 ^ 149 < mag d)) then some Config.mixMin
  else some d

end Sys2Proof.Machine
end

