-- ==== Sys2Proof/Syntax.lean ====
section
/-! DEFINITION. The five commands of the block as syntax (30_encoding.md R80 to R83), and the transaction that
carries a command over a port. -/

namespace Sys2Proof

/-- The two ports of the block (R80, R86): the control actor's and the audio actor's. -/
inductive Port where
  | control
  | audio
  deriving DecidableEq, Repr

/-- The two audio channels (R5): 0 is left, 1 is right. -/
inductive Channel where
  | left
  | right
  deriving DecidableEq, Repr

/-- What one port carries for one command: the CMD word and the DATA word (R80, R90). -/
structure Request where
  cmd  : Word
  data : Word
  deriving DecidableEq, Repr

/-- One transaction as the block receives it: a request and the port it arrives on (R80). -/
structure Transaction where
  port : Port
  cmd  : Word
  data : Word
  deriving DecidableEq, Repr

/-- A command, one constructor per row of opcode_table.json (R82). `port` is the port it arrives on, which decides
whether it is legal (R86); `pid` is the parameter id of PWR and PRD, reserved ids included (R83, R88); `data` and `x`
are the DATA word where the command uses it (R83). The commands that ignore DATA do not carry it. -/
inductive Instr where
  /-- NOP (R180). -/
  | nop (port : Port)
  /-- PWR (R100): parameter write. -/
  | pwr (port : Port) (pid : BitVec Config.pidBits) (data : Word)
  /-- PRD (R103): parameter read. -/
  | prd (port : Port) (pid : BitVec Config.pidBits)
  /-- BSTART (R181): start a block. -/
  | bstart (port : Port)
  /-- SMP (R182): process one sample of one channel. -/
  | smp (port : Port) (ch : Channel) (x : Word)
  deriving DecidableEq, Repr

/-- The port a command arrived on. -/
def Instr.port : Instr → Port
  | .nop p => p
  | .pwr p _ _ => p
  | .prd p _ => p
  | .bstart p => p
  | .smp p _ _ => p

end Sys2Proof
end

