-- ==== Sys2Proof/WellFormed.lean ====
section
/-! DEFINITION. When a command is well formed: its opcode is legal on the port it arrives on (30_encoding.md R86).
Every other field of `Instr` is legal by its type. -/

namespace Sys2Proof

/-- The port-legality table of R86. -/
def Instr.wellFormed : Instr → Bool
  | .nop _ => true
  | .pwr port _ _ => port == .control
  | .prd _ _ => true
  | .bstart port => port == .audio
  | .smp port _ _ => port == .audio

end Sys2Proof
end

