-- ==== Sys2Proof/Decode.lean ====
section
/-! DEFINITION. The command decoder of 30_encoding.md R81 to R90, total on every (port, CMD, DATA), and after it the
encoder, written from the assembler table R91, and the opcode table itself. -/

namespace Sys2Proof

/-- OPC, CMD[31:28] (R81). -/
def opcOf (cmd : Word) : BitVec 4 := cmd.extractLsb' 28 4
/-- RSV_HI, CMD[27:9] (R81). -/
def rsvHiOf (cmd : Word) : BitVec 19 := cmd.extractLsb' 9 19
/-- CH, CMD[8] (R81). -/
def chBitOf (cmd : Word) : BitVec 1 := cmd.extractLsb' 8 1
/-- RSV_LO, CMD[7:6] (R81). -/
def rsvLoOf (cmd : Word) : BitVec 2 := cmd.extractLsb' 6 2
/-- PID, CMD[5:0] (R81, R83). -/
def pidOf (cmd : Word) : BitVec 6 := cmd.extractLsb' 0 6

/-- The channel a CH bit names: 0 is left, 1 is right (R5, R83). -/
def channelOf (ch : BitVec 1) : Channel := if ch = 0#1 then .left else .right

/-- The CH bit of a channel. -/
def Channel.bit : Channel → BitVec 1
  | .left => 0#1
  | .right => 1#1

/-- Why a (port, CMD) pair is an illegal command (R84 to R86). All of them have one effect, that of R87. A pair that
is illegal on several counts gets the first that R89's text tests. -/
inductive Illegal where
  /-- A bit of RSV_HI or RSV_LO is set (R84). -/
  | reservedBits
  /-- OPC is 0x5 to 0xF (R85). -/
  | reservedOpcode
  /-- CH = 1 in a command other than SMP (R84). -/
  | strayChannel
  /-- PID ≠ 0 in a command other than PWR and PRD (R84). -/
  | strayPid
  /-- The opcode is not legal on the port (R86). -/
  | wrongPort
  deriving DecidableEq, Repr

/-- A decode result. R87 lets a model keep an illegal command apart from a NOP; this one does. -/
inductive Decoded where
  | command (i : Instr)
  | illegal (why : Illegal)
  deriving DecidableEq, Repr

/-- `op` if the CH bit is 0, as every command but SMP requires (R84). -/
def needNoChannel (cmd : Word) (op : Decoded) : Decoded :=
  if chBitOf cmd = 0#1 then op else .illegal .strayChannel

/-- `op` if the PID field is 0, as every command but PWR and PRD requires (R84). -/
def needNoPid (cmd : Word) (op : Decoded) : Decoded :=
  if pidOf cmd = 0#6 then op else .illegal .strayPid

/-- The command a CMD word names, whatever the port: the value `op` of R89. -/
def decodeOp (t : Transaction) : Decoded :=
  if rsvHiOf t.cmd ≠ 0#19 ∨ rsvLoOf t.cmd ≠ 0#2 then .illegal .reservedBits
  else if opcOf t.cmd = 0x0#4 then needNoChannel t.cmd (needNoPid t.cmd (.command (.nop t.port)))
  else if opcOf t.cmd = 0x1#4 then needNoChannel t.cmd (.command (.pwr t.port (pidOf t.cmd) t.data))
  else if opcOf t.cmd = 0x2#4 then needNoChannel t.cmd (.command (.prd t.port (pidOf t.cmd)))
  else if opcOf t.cmd = 0x3#4 then needNoChannel t.cmd (needNoPid t.cmd (.command (.bstart t.port)))
  else if opcOf t.cmd = 0x4#4 then needNoPid t.cmd (.command (.smp t.port (channelOf (chBitOf t.cmd)) t.data))
  else .illegal .reservedOpcode

/-- Port legality (R86), the last two lines of R89. -/
def checkPort : Decoded → Decoded
  | .command i => if i.wellFormed then .command i else .illegal .wrongPort
  | .illegal why => .illegal why

/-- The decode function of R89. -/
def decode (t : Transaction) : Decoded := checkPort (decodeOp t)

/-- The CMD word of a command, from the CMD column of R91 (R82's patterns). -/
def cmdOf : Instr → Word
  | .nop _ => 0x00000000#32
  | .pwr _ pid _ => 0x10000000#32 ||| pid.setWidth 32
  | .prd _ pid => 0x20000000#32 ||| pid.setWidth 32
  | .bstart _ => 0x30000000#32
  | .smp _ ch _ => 0x40000000#32 ||| (ch.bit.setWidth 32 <<< 8)

/-- The DATA word of a command, from the DATA column of R91: 0 for a form without a value operand. -/
def dataOf : Instr → Word
  | .nop _ => 0x00000000#32
  | .pwr _ _ data => data
  | .prd _ _ => 0x00000000#32
  | .bstart _ => 0x00000000#32
  | .smp _ _ x => x

/-- The encoder: the transaction that carries a command (R80, R90, R91). -/
def encode (i : Instr) : Transaction := ⟨i.port, cmdOf i, dataOf i⟩

/-- One row of spec/opcode_table.json: its mnemonic, mask and match words, and the ports it is legal on. -/
structure OpcodeRow where
  mnemonic : String
  mask     : Word
  pattern  : Word
  ports    : List Port
  deriving DecidableEq, Repr

/-- The NOP row (R180). -/
def nopRow : OpcodeRow := ⟨"NOP", 0xFFFFFFFF#32, 0x00000000#32, [.control, .audio]⟩
/-- The PWR row (R100). -/
def pwrRow : OpcodeRow := ⟨"PWR", 0xFFFFFFC0#32, 0x10000000#32, [.control]⟩
/-- The PRD row (R103). -/
def prdRow : OpcodeRow := ⟨"PRD", 0xFFFFFFC0#32, 0x20000000#32, [.control, .audio]⟩
/-- The BSTART row (R181). -/
def bstartRow : OpcodeRow := ⟨"BSTART", 0xFFFFFFFF#32, 0x30000000#32, [.audio]⟩
/-- The SMP row (R182). -/
def smpRow : OpcodeRow := ⟨"SMP", 0xFFFFFEFF#32, 0x40000000#32, [.audio]⟩

/-- spec/opcode_table.json, row by row. -/
def opcodeTable : List OpcodeRow := [nopRow, pwrRow, prdRow, bstartRow, smpRow]

/-- The second sentence of R89: the row matches the CMD word and is legal on the port. -/
def OpcodeRow.accepts (row : OpcodeRow) (port : Port) (cmd : Word) : Bool :=
  (cmd &&& row.mask) == row.pattern && row.ports.contains port

/-- The row of the table that a command is an instruction of. -/
def rowOf : Instr → OpcodeRow
  | .nop _ => nopRow
  | .pwr _ _ _ => pwrRow
  | .prd _ _ => prdRow
  | .bstart _ => bstartRow
  | .smp _ _ _ => smpRow

/-- The port a word of the opcode table is taken to arrive on, since the table's bits name none: Control for PWR,
which is legal only there, and Audio, where every other command is legal (R86). DESIGN CHOICE, safe: log entry 3. -/
def tablePort (cmd : Word) : Port := if opcOf cmd = 0x1#4 then .control else .audio

/-- The CMD word of an instruction given as one number: the low 32 of its `nbits` bits. -/
def tableCmd (nbits w : Nat) : Word := BitVec.ofNat 32 (w % 2 ^ nbits)

/-- The DATA word of an instruction given as one number: the bits above the CMD word, 0 where it has none. -/
def tableData (nbits w : Nat) : Word := BitVec.ofNat 32 (w % 2 ^ nbits / 2 ^ 32)

/-- The command the decoder reads from an instruction numbered as spec/opcode_table.json numbers its bits: the CMD
word, and above it the DATA word, which the table gives no bits (R90). -/
def decodeTableWord (nbits w : Nat) : Option Instr :=
  match decode ⟨tablePort (tableCmd nbits w), tableCmd nbits w, tableData nbits w⟩ with
  | .command i => some i
  | .illegal _ => none

end Sys2Proof
end

