-- ==== Sys2Proof/Machine/State.lean ====
section
/-! DEFINITION. The architectural state (10_state.md R30 to R46), the ports' command streams, and the reset state
(70_reset_and_hazards.md R220). -/

namespace Sys2Proof.Machine

/-- The parameter registers P (R34 to R39), each one 32-bit word. That they hold legal values only is the invariant of
R40, not a matter of type. -/
structure Params where
  /-- P.MIX, pid 0x00 (R34). -/
  mix          : Word
  /-- P.DS_FACTOR, pid 0x01 (R35). -/
  dsFactor     : Word
  /-- P.BIT_DEPTH, pid 0x02 (R36). -/
  bitDepth     : Word
  /-- P.CRUSH_METHOD, pid 0x03 (R37). -/
  crushMethod  : Word
  /-- P.MASKS_ENABLED, pid 0x04 (R38). -/
  masksEnabled : Word
  /-- P.MASK[k], pid 0x20 + k (R39). -/
  mask         : Vector Word Config.maskCount
  deriving DecidableEq, Repr

/-- The snapshot registers CFG (R41, R42), copies of the parameter words. -/
structure Snapshot where
  mix          : Word
  dsFactor     : Word
  bitDepth     : Word
  crushMethod  : Word
  masksEnabled : Word
  /-- CFG.MASKVEC (R42): bit k is the VALUE of P.MASK[k] at the snapshot. -/
  maskVec      : Word
  deriving DecidableEq, Repr

/-- The decimator state of one channel. -/
structure ChannelState where
  /-- HELD[c] (R44): any bit pattern. -/
  held : Word
  /-- PH[c] (R45): the 4-bit phase. -/
  ph   : BitVec Config.phaseBits
  deriving DecidableEq, Repr

/-- The complete architectural state S of the block, the tuple of R30. -/
structure Block where
  p     : Params
  cfg   : Snapshot
  /-- WG, the wet gain (R43). -/
  wg    : Word
  /-- DG, the dry gain (R43). -/
  dg    : Word
  /-- HELD[0] and PH[0]. -/
  left  : ChannelState
  /-- HELD[1] and PH[1]. -/
  right : ChannelState
  /-- QC_BD (R46): 0 means the quantum cache is empty. -/
  qcBd  : Nat
  /-- QC_Q (R46). -/
  qcQ   : Word
  deriving DecidableEq, Repr

/-- The machine: the block, the response word of the last command, and what arrives on the ports. `resp`, `control`,
`audio` and `schedule` are not part of S: R30 makes the response an output and the commands inputs of a step. The model
holds them as plain data. DESIGN CHOICE, unsafe only for a claim about `resp` before the first command: log entries 1
and 2. -/
structure State where
  /-- S (R30). -/
  blk      : Block
  /-- RESP of the command performed last (R80). -/
  resp     : Word
  /-- The Control port's command stream, first to arrive first (R67). -/
  control  : List Request
  /-- The Audio port's command stream, first to arrive first (R67). -/
  audio    : List Request
  /-- SCHEDULE (92_eei_decisions.md D23): the ports in the order their commands arrive. -/
  schedule : List Port
  deriving DecidableEq, Repr

/-- No command raises an exception and nothing stops the block: the set of causes is empty (60_exceptions.md R200,
46_block_pipeline.md R187). No constructor, so nothing raises a fault: safe. -/
inductive Fault where
  deriving DecidableEq, Repr

/-- Why an instruction is refused. -/
inductive Refusal where
  /-- An instruction without a meaning in this model. Raised by no arm of `exec`, since every command has its meaning:
  safe. -/
  | notModelled (mnemonic : String)
  deriving DecidableEq, Repr

/-- P after RESET: the source's defaults (R51, R220). -/
def Params.reset : Params where
  mix          := Config.mixDefault
  dsFactor     := Config.dsFactorDefault
  bitDepth     := Config.bitDepthDefault
  crushMethod  := Config.crushMethodDefault
  masksEnabled := Config.masksEnabledDefault
  mask         := Vector.replicate Config.maskCount Config.maskDefault

/-- CFG after RESET (R41, R51, R220). -/
def Snapshot.reset : Snapshot where
  mix          := 0x3F800000#32
  dsFactor     := 1#32
  bitDepth     := 24#32
  crushMethod  := 0#32
  masksEnabled := 1#32
  maskVec      := 0x00000000#32

/-- HELD[c] and PH[c] after RESET (R44, R45, R220). -/
def ChannelState.reset : ChannelState where
  held := 0x00000000#32
  ph   := 0#4

/-- S after RESET (R51, R220). -/
def Block.reset : Block where
  p     := Params.reset
  cfg   := Snapshot.reset
  wg    := 0x3F800000#32
  dg    := 0x00000000#32
  left  := ChannelState.reset
  right := ChannelState.reset
  qcBd  := 0
  qcQ   := 0x00000000#32

/-- The machine right after RESET: S as R220 writes it. No command has arrived, so no response has been given and no
stream holds anything: log entries 1 and 2 for these model fields. -/
def State.reset : State where
  blk      := Block.reset
  resp     := 0x00000000#32
  control  := []
  audio    := []
  schedule := []

end Sys2Proof.Machine
end

