-- ==== Sys2Proof/Machine/Ops.lean ====
section
/-! DEFINITION. The named operations over the state: the parameter registers by id, the channels, how a command ends, and how
the next command arrives. The block has no memory (20_memory.md R60), no exception entry and no return from one
(60_exceptions.md R200, R206), so there are no operations for them. -/

namespace Sys2Proof.Machine

/-- The word PRD reads (R103): the register of the id, and 0 for a reserved id. -/
def Params.read (p : Params) (pid : BitVec 6) : Word :=
  match paramId pid with
  | .mix => p.mix
  | .dsFactor => p.dsFactor
  | .bitDepth => p.bitDepth
  | .crushMethod => p.crushMethod
  | .masksEnabled => p.masksEnabled
  | .mask k => p.mask[k]
  | .reserved => 0x00000000#32

/-- The registers after a PWR (R100): the clamped value in the register of the id; nothing for a NaN written to MIX (R102)
or a reserved id (R88). -/
def Params.write (p : Params) (pid : BitVec 6) (data : Word) : Params :=
  match paramId pid with
  | .mix =>
    match clampMix data with
    | some v => { p with mix := v }
    | none => p
  | .dsFactor => { p with dsFactor := clampWord data Config.dsFactorMin Config.dsFactorMax }
  | .bitDepth => { p with bitDepth := clampWord data Config.bitDepthMin Config.bitDepthMax }
  | .crushMethod => { p with crushMethod := clampWord data 0 1 }
  | .masksEnabled => { p with masksEnabled := clampWord data 0 1 }
  | .mask k => { p with mask := p.mask.set k (clampWord data 0 1) }
  | .reserved => p

/-- The decimator state of a channel. -/
def Block.chan (b : Block) : Channel → ChannelState
  | .left => b.left
  | .right => b.right

/-- The block with the decimator state of one channel replaced. -/
def Block.setChan (b : Block) (c : Channel) (v : ChannelState) : Block :=
  match c with
  | .left => { b with left := v }
  | .right => { b with right := v }

/-- The end of a command: its new S and its RESP (R67, R80). -/
def State.commit (s : State) (r : Block × Word) : State := { s with blk := r.1, resp := r.2 }

/-- What an illegal command does (R87): S keeps every element and RESP is 0. -/
def State.ignoreCommand (s : State) : State := s.commit (s.blk, 0x00000000#32)

/-- A command that is legal only on some ports (R86): its effect where it is legal, R87's elsewhere. -/
def State.commitIf (s : State) (legal : Bool) (r : Block × Word) : State :=
  if legal then s.commit r else s.ignoreCommand

/-- The stream of a port. -/
def State.stream (s : State) : Port → List Request
  | .control => s.control
  | .audio => s.audio

/-- The state with the stream of one port replaced. -/
def State.setStream (s : State) (port : Port) (q : List Request) : State :=
  match port with
  | .control => { s with control := q }
  | .audio => { s with audio := q }

/-- The next command to arrive, and the state once it is off its stream: the head of the stream of the port that
SCHEDULE names (R67, D23). Nothing arrives when SCHEDULE is used up or names a port whose stream is empty; an entry
that brings nothing is passed over. -/
def State.fetch (s : State) : Option Transaction × State :=
  match s.schedule with
  | [] => (none, s)
  | port :: rest =>
    match s.stream port with
    | [] => (none, { s with schedule := rest })
    | r :: q => (some ⟨port, r.cmd, r.data⟩, { s.setStream port q with schedule := rest })

/-- The state in which a transaction is the very next to arrive. -/
def State.offer (s : State) (t : Transaction) : State :=
  { s.setStream t.port (⟨t.cmd, t.data⟩ :: s.stream t.port) with schedule := t.port :: s.schedule }

/-- The state in which a transaction arrives after all those already scheduled. -/
def State.issue (s : State) (t : Transaction) : State :=
  { s.setStream t.port (s.stream t.port ++ [⟨t.cmd, t.data⟩]) with schedule := s.schedule ++ [t.port] }

end Sys2Proof.Machine
end

