-- ==== Sys2Proof/Machine/Tables.lean ====
section
/-! DEFINITION. The constant tables of 10_state.md R47 to R49, each by its formula. -/

namespace Sys2Proof.Machine

/-- BITMASK[k] = 1 << k (R47). -/
def bitMask (k : Nat) : Word := 1#32 <<< k

/-- QTAB[b] = RN32(1 / (2^b − 1)), for b = 2..24 (R48). The spec names no entry outside 2..24 and no reachable state
asks for one: log entry 8. -/
def qtab (b : Nat) : Word := rn32 false (2 ^ 149) (2 ^ b - 1)

/-- TMASK[b] = ~((1 << (27 − b)) − 1), for b = 2..24 (R49). -/
def tmask (b : Nat) : Word := ~~~((1#32 <<< (Config.truncBias - b)) - 1#32)

end Sys2Proof.Machine
end

