-- ==== Sys2Proof/Machine/BitDepthReducer.lean ====
section
/-! DEFINITION. The Bit-Depth Reducer stage (43_bit_depth_reducer.md). -/

namespace Sys2Proof.Machine

/-- Quantize with a given quantum q: R131 after its cache line. -/
def quantizeBy (q x : Word) : Word :=
  let t := div32 x q
  if isNaN t then qnan
  else if isInf t then t
  else
    let k := truncInt t
    if k = 0 then 0x00000000#32 else mul32 q (f32OfInt k)

/-- The cache line of R131: the quantum cache after it holds the quantum of b. -/
def Block.fillCache (blk : Block) (b : Nat) : Block :=
  if blk.qcBd ≠ b then { blk with qcBd := b, qcQ := qtab b } else blk

/-- Quantize(x, b), the strategy "QL" (R131). -/
def Block.quantize (blk : Block) (x : Word) (b : Nat) : Block × Word :=
  (blk.fillCache b, quantizeBy (blk.fillCache b).qcQ x)

/-- Truncate(x, b), the strategy "Bit-Shift" (R134). -/
def truncate (x : Word) (b : Nat) : Word :=
  (x.sshiftRight (Config.truncBias - b)) <<< (Config.truncBias - b)

/-- Crush(x): the choice of strategy (R130). -/
def Block.crush (blk : Block) (x : Word) : Block × Word :=
  if blk.cfg.crushMethod = 0#32 then blk.quantize x blk.cfg.bitDepth.toNat
  else (blk, truncate x blk.cfg.bitDepth.toNat)

end Sys2Proof.Machine
end

