-- ==== Sys2Proof/Machine/BitmaskDistorter.lean ====
section
/-! DEFINITION. The Bitmask Distorter stage (44_bitmask_distorter.md) and the vector it reads (10_state.md R42). -/

namespace Sys2Proof.Machine

/-- CFG.MASKVEC of a set of mask registers: the OR over k of P.MASK[k][0] << k (R42). -/
def maskVecOf (m : Vector Word Config.maskCount) : Word :=
  (List.finRange Config.maskCount).foldl (fun acc k => acc ||| ((m[k] &&& 1#32) <<< k.val)) 0#32

/-- The loop of R150: y with every active bit cleared. -/
def clearActive (maskVec y : Word) : Word :=
  (List.finRange Config.maskCount).foldl
    (fun r k => if maskVec.getLsbD k.val then r &&& ~~~(bitMask k.val) else r) y

/-- Bitmask(y) (R150). -/
def bitmask (cfg : Snapshot) (y : Word) : Word :=
  if cfg.masksEnabled = 0#32 then y else clearActive cfg.maskVec y

end Sys2Proof.Machine
end

