-- ==== Sys2Proof/Machine/Decimator.lean ====
section
/-! DEFINITION. The Decimator stage (42_decimator.md). -/

namespace Sys2Proof.Machine

/-- `if PH[c] == 0: HELD[c] <- y` (R120). -/
def ChannelState.hold (v : ChannelState) (y : Word) : ChannelState :=
  if v.ph = 0#4 then { v with held := y } else v

/-- Decimate(c, y) (R120): the new state and the wet sample HELD[c]. -/
def Block.decimate (b : Block) (c : Channel) (y : Word) : Block × Word :=
  (b.setChan c ((b.chan c).hold y), ((b.chan c).hold y).held)

/-- PH <- (PH + 1) mod n (R121). -/
def ChannelState.advance (v : ChannelState) (n : Nat) : ChannelState :=
  { v with ph := BitVec.ofNat 4 ((v.ph.toNat + 1) % n) }

/-- The phase advance of channel c (R121). -/
def Block.advancePhase (b : Block) (c : Channel) : Block :=
  b.setChan c ((b.chan c).advance b.cfg.dsFactor.toNat)

end Sys2Proof.Machine
end

