-- ==== Sys2Proof/Machine/Gains.lean ====
section
/-! DEFINITION. SinPi32 and CosPi32 (00_scope.md R20): the correctly rounded binary32 sine and cosine of π·p, for the
exact p of 45_mixer.md R160. No approximation of π or of the cosine enters. The model only compares cos(π·p) with
numbers of the form N/2^j, and does so exactly, by the identity cos 2θ = 2 cos²θ − 1: for θ in [0, π/2] and r ≥ 0,
cos θ compares with r as cos 2θ does with 2r² − 1. Doubling a dyadic angle often enough reaches 0 or π/2, where the
cosine is 1 or 0. DEDUCED from R20, safe: log entry 5. -/

namespace Sys2Proof.Machine

/-- How cos(π·a/2^(n+1)) compares with r = num/2^j, for 0 ≤ a ≤ 2^n (an angle in [0, π/2]). The clear definition: exact
at every step, its numbers double in length at each. Where 2θ passes π/2 the comparison is turned round, since
cos 2θ = −cos(π − 2θ). -/
def cosCompareExact : (n a num j : Nat) → Ordering
  | 0, a, num, j => compare (if a = 0 then 2 ^ j else 0) num
  | n + 1, a, num, j =>
    if a ≤ 2 ^ n then
      if 2 * num * num < 2 ^ (2 * j) then .gt
      else cosCompareExact n a (2 * num * num - 2 ^ (2 * j)) (2 * j)
    else
      if 2 ^ (2 * j) ≤ 2 * num * num then .lt
      else (cosCompareExact n (2 ^ (n + 1) - a) (2 ^ (2 * j) - 2 * num * num) (2 * j)).swap

/-- The bits kept by `cosCompareFast`. -/
def gainBits : Nat := 256

/-- The same comparison with r known only to lie in [lo, hi] / 2^256, the interval rounded outwards at each step: `none`
where the interval does not settle it. -/
def cosCompareFast : (n a lo hi : Nat) → Option Ordering
  | 0, _, _, _ => none
  | n + 1, a, lo, hi =>
    if a = 0 then
      if hi < 2 ^ gainBits then some .gt
      else if 2 ^ gainBits < lo then some .lt
      else if lo = hi then some .eq else none
    else if a = 2 ^ (n + 1) then
      if 0 < lo then some .lt else if hi = 0 then some .eq else none
    else if 2 ^ gainBits ≤ lo then some .lt
    else
      let l := 2 * lo * lo / 2 ^ gainBits
      let h := 2 * hi * hi / 2 ^ gainBits + 1
      if a ≤ 2 ^ n then
        if h < 2 ^ gainBits then some .gt
        else if l < 2 ^ gainBits then none
        else cosCompareFast n a (l - 2 ^ gainBits) (h - 2 ^ gainBits)
      else
        if 2 ^ gainBits ≤ l then some .lt
        else if 2 ^ gainBits < h then none
        else (cosCompareFast n (2 ^ (n + 1) - a) (2 ^ gainBits - h) (2 ^ gainBits - l)).map Ordering.swap

/-- The exponent of the angles of R160: real(m) is a whole number of units of 2^−149, so p = (real(m) + 1)/4 is a whole
number of units of 2^−151, and [0, 1/2] is 0 to 2^150. -/
def angleBits : Nat := 150

/-- How cos(π·a/2^151) compares with num/2^150. The interval answers where it can, the exact comparison elsewhere. -/
def cosCompare (a num : Nat) : Ordering :=
  match cosCompareFast angleBits a (num * 2 ^ (gainBits - 150)) (num * 2 ^ (gainBits - 150)) with
  | some o => o
  | none => cosCompareExact angleBits a num 150

/-- The largest word from `w` to `w + 2^i − 1` whose value is at most x, given that the value of `w` is. `cmp N` says how
x ≥ 0 compares with N/2^150. A non-negative word's value rises with the word (R12). -/
def floorWord (cmp : Nat → Ordering) : (i w : Nat) → Nat
  | 0, w => w
  | i + 1, w =>
    match cmp (2 * mag (BitVec.ofNat 32 (w + 2 ^ i))) with
    | .lt => floorWord cmp i w
    | .eq => floorWord cmp i (w + 2 ^ i)
    | .gt => floorWord cmp i (w + 2 ^ i)

/-- RN32(x) of a real x in [0, 1] known by its comparisons (R14): the nearer of the two words around x, and on a tie the
even one, whose integer n of R14 is even. -/
def nearestWord (cmp : Nat → Ordering) : Word :=
  let w := floorWord cmp 30 0
  match cmp (mag (BitVec.ofNat 32 w) + mag (BitVec.ofNat 32 (w + 1))) with
  | .lt => BitVec.ofNat 32 w
  | .gt => BitVec.ofNat 32 (w + 1)
  | .eq => BitVec.ofNat 32 (w + w % 2)

/-- CosPi32(p) for p = a/2^151 in [0, 1/2] (R20). -/
def cosPi32 (a : Nat) : Word := nearestWord (cosCompare a)

/-- SinPi32(p) for p = a/2^151 in [0, 1/2] (R20): sin(π·p) = cos(π·(1/2 − p)). -/
def sinPi32 (a : Nat) : Word := cosPi32 (2 ^ angleBits - a)

/-- p = (real(m) + 1)/4 in units of 2^−151, exact (R160). -/
def mixAngle (m : Word) : Nat := (units m + 2 ^ 149).toNat

/-- The wet gain of a mix value: SinPi32(p) (R160). -/
def wetGain (m : Word) : Word := sinPi32 (mixAngle m)

/-- The dry gain of a mix value: CosPi32(p) (R160). -/
def dryGain (m : Word) : Word := cosPi32 (mixAngle m)

end Sys2Proof.Machine
end

