-- ==== Sys2Proof/Machine/Mixer.lean ====
section
/-! DEFINITION. The Dry/Wet Mixer stage (45_mixer.md). -/

namespace Sys2Proof.Machine

/-- Gains(CFG.MIX) (R160): it writes WG and DG. -/
def Block.writeGains (b : Block) : Block :=
  { b with wg := wetGain b.cfg.mix, dg := dryGain b.cfg.mix }

/-- MixOut(dry, wet) with given gains (R162): two rounded products and one rounded sum. -/
def mixWith (wg dg dry wet : Word) : Word := add32 (mul32 dg dry) (mul32 wg wet)

/-- MixOut(dry, wet) (R162, R165). -/
def Block.mixOut (b : Block) (dry wet : Word) : Word := mixWith b.wg b.dg dry wet

end Sys2Proof.Machine
end

