-- ==== Sys2Proof/Machine/BlockPipeline.lean ====
section
/-! DEFINITION. The block pipeline commands NOP, BSTART and SMP (46_block_pipeline.md). -/

namespace Sys2Proof.Machine

/-- NOP (R180): no state change, RESP 0. -/
def Block.nop (b : Block) : Block × Word := (b, 0x00000000#32)

/-- The snapshot lines of R181: CFG <- P, with MASKVEC from the mask registers (R42). -/
def Params.snapshot (p : Params) : Snapshot where
  mix          := p.mix
  dsFactor     := p.dsFactor
  bitDepth     := p.bitDepth
  crushMethod  := p.crushMethod
  masksEnabled := p.masksEnabled
  maskVec      := maskVecOf p.mask

/-- PH[0] <- 0 and PH[1] <- 0 (R181); HELD is kept. -/
def Block.clearPhases (b : Block) : Block :=
  { b with left := { b.left with ph := 0#4 }, right := { b.right with ph := 0#4 } }

/-- BSTART (R181): the snapshot, the gains of it, the phases. -/
def Block.bstart (b : Block) : Block × Word :=
  ({ b with cfg := b.p.snapshot }.writeGains.clearPhases, 0x00000000#32)

/-- The first two stages of SMP: Crush, which may refill the cache, and Bitmask (R182). -/
def Block.shape (b : Block) (x : Word) : Block × Word :=
  ((b.crush x).1, bitmask (b.crush x).1.cfg (b.crush x).2)

/-- SMP(c, x) (R182): crush, mask, decimate, advance the phase, mix against the sample as it arrived. -/
def Block.smp (b : Block) (c : Channel) (x : Word) : Block × Word :=
  let shaped := b.shape x
  let held := shaped.1.decimate c shaped.2
  let after := held.1.advancePhase c
  (after, after.mixOut x held.2)

/-- NOP (R180), legal on both ports (R86). -/
def execNop (_port : Port) (s : State) : Host.Outcome State Fault Refusal := .next (s.commit s.blk.nop)

/-- BSTART (R181), legal on the Audio port only (R86). -/
def execBstart (port : Port) (s : State) : Host.Outcome State Fault Refusal :=
  .next (s.commitIf (port == .audio) s.blk.bstart)

/-- SMP (R182), legal on the Audio port only (R86). -/
def execSmp (port : Port) (ch : Channel) (x : Word) (s : State) : Host.Outcome State Fault Refusal :=
  .next (s.commitIf (port == .audio) (s.blk.smp ch x))

end Sys2Proof.Machine
end

