-- ==== Sys2Proof/Machine/ParameterStore.lean ====
section
/-! DEFINITION. The parameter store commands PWR and PRD (41_parameter_store.md). -/

namespace Sys2Proof.Machine

/-- PWR(pid, DATA) of R100: it writes P and no other element of S. -/
def Block.pwr (b : Block) (pid : BitVec 6) (data : Word) : Block × Word :=
  ({ b with p := b.p.write pid data }, 0x00000000#32)

/-- PRD(pid) of R103: it changes nothing. -/
def Block.prd (b : Block) (pid : BitVec 6) : Block × Word := (b, b.p.read pid)

/-- PWR (R100), legal on the Control port only (R86). -/
def execPwr (port : Port) (pid : BitVec 6) (data : Word) (s : State) : Host.Outcome State Fault Refusal :=
  .next (s.commitIf (port == .control) (s.blk.pwr pid data))

/-- PRD (R103), legal on both ports (R86). -/
def execPrd (_port : Port) (pid : BitVec 6) (s : State) : Host.Outcome State Fault Refusal :=
  .next (s.commit (s.blk.prd pid))

end Sys2Proof.Machine
end

