-- ==== Sys2Proof/Machine/Dispatch.lean ====
section
/-! DEFINITION. One arm per command: the meaning of each (30_encoding.md R82). -/

namespace Sys2Proof.Machine

def exec (i : Instr) (s : State) : Host.Outcome State Fault Refusal :=
  match i with
  | .nop port => Sys2Proof.Machine.execNop port s
  | .pwr port pid data => Sys2Proof.Machine.execPwr port pid data s
  | .prd port pid => Sys2Proof.Machine.execPrd port pid s
  | .bstart port => Sys2Proof.Machine.execBstart port s
  | .smp port ch x => Sys2Proof.Machine.execSmp port ch x s

end Sys2Proof.Machine
end

