-- ==== Sys2Proof/Machine/Step.lean ====
section
/-! DEFINITION. One step: the next command of SCHEDULE arrives and is performed as one atomic step (20_memory.md R67).
Where nothing arrives the block holds its state (60_exceptions.md R211). -/

namespace Sys2Proof.Machine

/-- One step of the machine. An illegal command is ignored (R87). -/
def step (s : State) : Host.Outcome State Fault Refusal :=
  match s.fetch with
  | (none, s') => .next s'
  | (some t, s') =>
    match decode t with
    | .command i => exec i s'
    | .illegal _ => .next s'.ignoreCommand

/-- `s` with the instruction of a table word as the very next command to arrive. -/
def State.withFetchWord (s : State) (nbits w : Nat) : State :=
  s.offer ⟨tablePort (tableCmd nbits w), tableCmd nbits w, tableData nbits w⟩

end Sys2Proof.Machine
end

