-- ==== Sys2Proof/Machine/Streams.lean ====
section
/-! DEFINITION. The block seen from its ports: one transaction's effect on S and its RESP (30_encoding.md R80), a stream of
transactions served in order (20_memory.md R67), and the source's block call `pblock` with the host's arrays
(46_block_pipeline.md R186). -/

namespace Sys2Proof.Machine

/-- What a legal command does to S, and its RESP: R180, R100, R103, R181, R182. -/
def Block.effect (b : Block) : Instr → Block × Word
  | .nop _ => b.nop
  | .pwr _ pid data => b.pwr pid data
  | .prd _ pid => b.prd pid
  | .bstart _ => b.bstart
  | .smp _ ch x => b.smp ch x

/-- (port, CMD, DATA) → RESP on S (R80): an illegal command changes nothing and answers 0 (R87). -/
def Block.perform (b : Block) (t : Transaction) : Block × Word :=
  match decode t with
  | .command i => b.effect i
  | .illegal _ => (b, 0x00000000#32)

/-- A stream of transactions in total order: the final S, and the RESP word of each (R67). -/
def Block.serve (b : Block) : List Transaction → Block × List Word
  | [] => (b, [])
  | t :: ts =>
    let first := b.perform t
    let later := first.1.serve ts
    (later.1, first.2 :: later.2)

/-- `A: smp c, x` (R91). -/
def smpOn (c : Channel) (x : Word) : Transaction := encode (.smp .audio c x)

/-- `pblock n, L, R` (R186): BSTART, then the n samples of channel 0, then those of channel 1. -/
def pblock (l r : List Word) : List Transaction :=
  encode (.bstart .audio) :: (l.map (smpOn .left) ++ r.map (smpOn .right))

/-- The host's block call (R186): S afterwards, and the two arrays, each element replaced by its RESP. -/
def Block.runPblock (b : Block) (l r : List Word) : Block × List Word × List Word :=
  let served := b.serve (pblock l r)
  let outs := served.2.tail
  (served.1, outs.take l.length, outs.drop l.length)

/-- Every port's commands in one total order, as the streams and the SCHEDULE of the state (R67, D23). -/
def State.issueAll (s : State) : List Transaction → State
  | [] => s
  | t :: ts => (s.issue t).issueAll ts

end Sys2Proof.Machine
end

