-- ==== Sys2Proof/Machine/Assembler.lean ====
section
/-! DEFINITION. The assembler syntax and the pseudo-instructions (30_encoding.md R91, R92): the forms as data, their
expansion into transactions, and the reading of one line of text. Outside the block: a host's tool. -/

namespace Sys2Proof.Machine

/-- A `<value>` or `<sample>` (R91). -/
inductive Value where
  /-- A 32-bit hexadecimal word. -/
  | hex (w : Word)
  /-- A signed decimal integer. -/
  | int (n : Int)
  /-- A decimal literal with suffix f: ±digits / 10^scale. -/
  | float (neg : Bool) (digits scale : Nat)
  deriving DecidableEq, Repr

/-- The word of a magnitude digits/10^scale that binary32 represents exactly, as its low 31 bits. -/
def exactMag (digits scale : Nat) : Option Nat :=
  if digits * 2 ^ 149 % 10 ^ scale = 0 then
    let u := digits * 2 ^ 149 / 10 ^ scale
    if rnMag u 1 < 0x7F800000 ∧ mag (BitVec.ofNat 32 (rnMag u 1)) = u then some (rnMag u 1) else none
  else none

/-- The DATA word of a value; `none` where the assembler rejects it (R91): an integer outside word's range (R9), or a
literal f that binary32 cannot represent exactly. A literal −0.0f is the word of −0: log entry 9. -/
def Value.toWord : Value → Option Word
  | .hex w => some w
  | .int n => if -(2 ^ 31) ≤ n ∧ n < 2 ^ 31 then some (word n) else none
  | .float neg digits scale =>
    (exactMag digits scale).map fun m => BitVec.ofNat 32 (m + if neg then 2 ^ 31 else 0)

/-- One line of a program (R91) or a pseudo-instruction (R92). -/
inductive Line where
  | nop (port : Port)
  | pwr (port : Port) (pid : BitVec 6) (value : Value)
  | prd (port : Port) (pid : BitVec 6)
  | bstart (port : Port)
  | smp (port : Port) (ch : Channel) (sample : Value)
  /-- `.cmd`: an arbitrary CMD word with an arbitrary DATA word. -/
  | cmd (port : Port) (cmd data : Word)
  /-- `mask.set k` (R92). -/
  | maskSet (k : Fin 32)
  /-- `mask.clr k` (R92). -/
  | maskClr (k : Fin 32)
  /-- `pblock n, Lbuf, Rbuf` (R92, R186) with the contents of the host's buffers. -/
  | pblock (l r : List Word)
  deriving DecidableEq, Repr

/-- The pid of P.MASK[k] (R39). -/
def maskPid (k : Fin 32) : BitVec 6 := BitVec.ofNat 6 (0x20 + k.val)

/-- The transactions of a line (R91, R92), or `none` where the assembler rejects its value. -/
def Line.expand : Line → Option (List Transaction)
  | .nop port => some [⟨port, 0x00000000#32, 0#32⟩]
  | .pwr port pid value => value.toWord.map fun w => [⟨port, 0x10000000#32 ||| pid.setWidth 32, w⟩]
  | .prd port pid => some [⟨port, 0x20000000#32 ||| pid.setWidth 32, 0#32⟩]
  | .bstart port => some [⟨port, 0x30000000#32, 0#32⟩]
  | .smp port ch sample =>
    sample.toWord.map fun w => [⟨port, 0x40000000#32 ||| (ch.bit.setWidth 32 <<< 8), w⟩]
  | .cmd port c d => some [⟨port, c, d⟩]
  | .maskSet k => some [⟨.control, 0x10000000#32 ||| (maskPid k).setWidth 32, 1#32⟩]
  | .maskClr k => some [⟨.control, 0x10000000#32 ||| (maskPid k).setWidth 32, 0#32⟩]
  | .pblock l r => some (Machine.pblock l r)

/-- The transactions of a whole program, in order. -/
def expandAll : List Line → Option (List Transaction)
  | [] => some []
  | ln :: lns =>
    match ln.expand, expandAll lns with
    | some ts, some rest => some (ts ++ rest)
    | _, _ => none

/-- The value of a decimal digit. -/
def decDigit (c : Char) : Option Nat :=
  if 48 ≤ c.toNat ∧ c.toNat ≤ 57 then some (c.toNat - 48) else none

/-- The value of a hexadecimal digit. -/
def hexDigit (c : Char) : Option Nat :=
  if 48 ≤ c.toNat ∧ c.toNat ≤ 57 then some (c.toNat - 48)
  else if 65 ≤ c.toNat ∧ c.toNat ≤ 70 then some (c.toNat - 55)
  else if 97 ≤ c.toNat ∧ c.toNat ≤ 102 then some (c.toNat - 87)
  else none

/-- The number that the remaining digits make of `acc`. -/
def digitsFrom (digit : Char → Option Nat) (base : Nat) : (acc : Nat) → List Char → Option Nat
  | acc, [] => some acc
  | acc, c :: cs =>
    match digit c with
    | some d => digitsFrom digit base (acc * base + d) cs
    | none => none

/-- A number in decimal, or in hexadecimal after 0x. Leading zeros are read: DESIGN CHOICE, safe, log entry 9. -/
def readNat : List Char → Option Nat
  | [] => none
  | ['0', 'x'] => none
  | '0' :: 'x' :: cs => digitsFrom hexDigit 16 0 cs
  | cs => digitsFrom decDigit 10 0 cs

/-- A hexadecimal word. -/
def readHexWord : List Char → Option Word
  | '0' :: 'x' :: cs =>
    match readNat ('0' :: 'x' :: cs) with
    | some n => if n < 2 ^ 32 then some (BitVec.ofNat 32 n) else none
    | none => none
  | _ => none

/-- An unsigned decimal integer, or a decimal literal ending in f. -/
def readDecimal (neg : Bool) (cs : List Char) : Option Value :=
  if cs.getLast? = some 'f' then
    let body := cs.dropLast
    let whole := body.takeWhile (· ≠ '.')
    let part := (body.dropWhile (· ≠ '.')).drop 1
    if whole = [] ∨ body.getLast? = some '.' then none
    else (digitsFrom decDigit 10 0 (whole ++ part)).map fun d => .float neg d part.length
  else if cs = [] then none
  else (digitsFrom decDigit 10 0 cs).map fun d => .int (if neg then -(d : Int) else (d : Int))

/-- A `<value>` or `<sample>` (R91). A plus sign is rejected: DESIGN CHOICE, safe, log entry 9. -/
def readValue : List Char → Option Value
  | '0' :: 'x' :: cs => (readHexWord ('0' :: 'x' :: cs)).map .hex
  | '-' :: cs => readDecimal true cs
  | cs => readDecimal false cs

/-- A `<pid>` (R91): a number 0..63 or one of the names. The number of a mask name may have leading zeros (MASK07 is
MASK7): DESIGN CHOICE, safe, log entry 9. -/
def readPid (cs : List Char) : Option (BitVec 6) :=
  if cs = ['M', 'I', 'X'] then some 0x00#6
  else if cs = ['D', 'S', '_', 'F', 'A', 'C', 'T', 'O', 'R'] then some 0x01#6
  else if cs = ['B', 'I', 'T', '_', 'D', 'E', 'P', 'T', 'H'] then some 0x02#6
  else if cs = ['C', 'R', 'U', 'S', 'H', '_', 'M', 'E', 'T', 'H', 'O', 'D'] then some 0x03#6
  else if cs = ['M', 'A', 'S', 'K', 'S', '_', 'E', 'N', 'A', 'B', 'L', 'E', 'D'] then some 0x04#6
  else
    match cs with
    | 'M' :: 'A' :: 'S' :: 'K' :: k =>
      if k = [] then none
      else
        match digitsFrom decDigit 10 0 k with
        | some n => if n < 32 then some (BitVec.ofNat 6 (0x20 + n)) else none
        | none => none
    | _ =>
      match readNat cs with
      | some n => if n < 64 then some (BitVec.ofNat 6 n) else none
      | none => none

/-- A `<ch>` (R91). -/
def readChannel (cs : List Char) : Option Channel :=
  if cs = ['0'] ∨ cs = ['L'] then some .left
  else if cs = ['1'] ∨ cs = ['R'] then some .right
  else none

/-- The index of `mask.set` and `mask.clr` (R92). -/
def readBit (cs : List Char) : Option (Fin 32) :=
  match readNat cs with
  | some n => if h : n < 32 then some ⟨n, h⟩ else none
  | none => none

/-- The words of a line: `:` and `,` are words of their own, blanks separate, `;` starts a comment (R91). `word` holds the
characters of the word being read, last first. -/
def tokens : (word : List Char) → List Char → List (List Char)
  | word, [] => if word = [] then [] else [word.reverse]
  | word, c :: cs =>
    let done := if word = [] then [] else [word.reverse]
    if c = ';' then done
    else if c = ' ' ∨ c = '\t' then done ++ tokens [] cs
    else if c = ',' ∨ c = ':' then done ++ [c] :: tokens [] cs
    else tokens (c :: word) cs

/-- The form after `<port>:` (R91). -/
def readForm (port : Port) : List (List Char) → Option Line
  | [['n', 'o', 'p']] => some (.nop port)
  | [['b', 's', 't', 'a', 'r', 't']] => some (.bstart port)
  | [['p', 'r', 'd'], pid] => (readPid pid).map (.prd port)
  | [['p', 'w', 'r'], pid, [','], v] =>
    match readPid pid, readValue v with
    | some p, some d => some (.pwr port p d)
    | _, _ => none
  | [['s', 'm', 'p'], ch, [','], v] =>
    match readChannel ch, readValue v with
    | some c, some d => some (.smp port c d)
    | _, _ => none
  | [['.', 'c', 'm', 'd'], cmd, [','], data] =>
    match readHexWord cmd, readHexWord data with
    | some c, some d => some (.cmd port c d)
    | _, _ => none
  | _ => none

/-- One line of text (R91), or a `mask.set` or `mask.clr` (R92); `none` where it is none of the forms. `pblock` names the
host's buffers, which a line of text cannot hold, so it is written as `Line.pblock` only. A line that holds no command
(empty, or a comment only) is none of the forms: DESIGN CHOICE, safe, log entry 9. -/
def readLine (text : List Char) : Option Line :=
  match tokens [] text with
  | [['m', 'a', 's', 'k', '.', 's', 'e', 't'], k] => (readBit k).map .maskSet
  | [['m', 'a', 's', 'k', '.', 'c', 'l', 'r'], k] => (readBit k).map .maskClr
  | ['C'] :: [':'] :: form => readForm .control form
  | ['A'] :: [':'] :: form => readForm .audio form
  | _ => none

end Sys2Proof.Machine
end

