-- ==== Sys2Proof/Safety.lean ====
section
/-! DEFINITION. The terms claims are stated in: the legal values of the registers and the invariant of every reachable
state (10_state.md R34 to R46), the real value of a word and round-to-nearest-even (00_scope.md R12, R14), and what a
run on a stream of commands is. None of it is used by the machine. -/

namespace Sys2Proof.Machine

/-- A legal P.MIX value (R34): the words of −1.0 to +1.0, both zeros and the subnormals among them. -/
abbrev MixLegal (w : Word) : Prop :=
  w.toNat ≤ 0x3F800000 ∨ (0x80000000 ≤ w.toNat ∧ w.toNat ≤ 0xBF800000)

/-- A legal DS_FACTOR value (R35). -/
abbrev DsLegal (w : Word) : Prop := 1 ≤ w.toNat ∧ w.toNat ≤ 16

/-- A legal BIT_DEPTH value (R36). -/
abbrev BitDepthLegal (w : Word) : Prop := 2 ≤ w.toNat ∧ w.toNat ≤ 24

/-- A legal value of an enumerated or boolean parameter (R37 to R39). -/
abbrev BitLegal (w : Word) : Prop := w = 0#32 ∨ w = 1#32

/-- Every parameter register holds a legal value (R40). -/
abbrev Params.Legal (p : Params) : Prop :=
  MixLegal p.mix ∧ DsLegal p.dsFactor ∧ BitDepthLegal p.bitDepth ∧ BitLegal p.crushMethod ∧
    BitLegal p.masksEnabled ∧ ∀ k : Fin 32, BitLegal p.mask[k]

/-- Every field of CFG holds a legal value (R41); any MASKVEC is (R42). -/
abbrev Snapshot.Legal (c : Snapshot) : Prop :=
  MixLegal c.mix ∧ DsLegal c.dsFactor ∧ BitDepthLegal c.bitDepth ∧ BitLegal c.crushMethod ∧
    BitLegal c.masksEnabled

/-- The quantum cache is empty or holds the quantum of its bit depth (R46). -/
abbrev Block.CacheCoherent (b : Block) : Prop :=
  b.qcBd = 0 ∨ ((2 ≤ b.qcBd ∧ b.qcBd ≤ 24) ∧ b.qcQ = qtab b.qcBd)

/-- WG and DG are the gains of CFG.MIX (R43, R160). -/
abbrev Block.GainsOfCfg (b : Block) : Prop := b.wg = wetGain b.cfg.mix ∧ b.dg = dryGain b.cfg.mix

/-- Each phase is below CFG.DS_FACTOR (R45). -/
abbrev Block.PhasesInRange (b : Block) : Prop :=
  b.left.ph.toNat < b.cfg.dsFactor.toNat ∧ b.right.ph.toNat < b.cfg.dsFactor.toNat

/-- What holds of S in every reachable state (R40, R41, R43, R45, R46). -/
abbrev Block.Inv (b : Block) : Prop :=
  b.p.Legal ∧ b.cfg.Legal ∧ b.GainsOfCfg ∧ b.PhasesInRange ∧ b.CacheCoherent

/-- real(b) of a finite word (R12). -/
def realOf (b : Word) : ℚ := (units b : ℚ) / 2 ^ 149

/-- n is an integer nearest r, and the even one on a tie (R14). -/
def NearestEven (r : ℝ) (n : ℕ) : Prop := |r - n| < 1 / 2 ∨ (|r - n| = 1 / 2 ∧ Even n)

/-- u is R14's quantum of x: u = 2^(e − 23) with e = max(floor(log2 |x|), −126). -/
def QuantumOf (x u : ℝ) : Prop := u = (2 : ℝ) ^ (max (Int.log 2 |x|) (-126) - 23)

/-- w encodes n quanta u with sign `neg`: the infinity from 2^128 on, the zero for n = 0, else the word of that value
(R14). -/
def Encodes (w : Word) (neg : Bool) (n : ℕ) (u : ℝ) : Prop :=
  ((2 : ℝ) ^ 128 ≤ n * u → w = infOf neg) ∧
  ((n : ℝ) * u < 2 ^ 128 → n = 0 → w = zeroOf neg) ∧
  ((n : ℝ) * u < 2 ^ 128 → n ≠ 0 → isFinite w = true ∧ signBit w = neg ∧ (mag w : ℝ) / 2 ^ 149 = n * u)

/-- w = RN32(x), for a real x ≠ 0, in the words of R14. -/
def IsRN32 (x : ℝ) (w : Word) : Prop :=
  ∃ (neg : Bool) (n : ℕ) (u : ℝ),
    (neg = true ↔ x < 0) ∧ QuantumOf x u ∧ NearestEven (|x| / u) n ∧ Encodes w neg n u

/-- The SMP commands of a list, each a channel and a sample, as transactions on the Audio port. -/
def smpStream (l : List (Channel × Word)) : List Transaction := l.map fun cx => smpOn cx.1 cx.2

/-- The response words of one channel among those of `smpStream l`. -/
def responsesOf (c : Channel) (l : List (Channel × Word)) (resps : List Word) : List Word :=
  ((l.zip resps).filter fun p => p.1.1 == c).map Prod.snd

/-- A transaction that performs an SMP of a channel. -/
def isSmpOf (c : Channel) (t : Transaction) : Bool :=
  match decode t with
  | .command (.smp _ ch _) => ch == c
  | _ => false

/-- A transaction that performs an SMP. -/
def isSmp (t : Transaction) : Bool := isSmpOf .left t || isSmpOf .right t

/-- A transaction that performs a BSTART. -/
def isBstart (t : Transaction) : Bool :=
  match decode t with
  | .command (.bstart _) => true
  | _ => false

end Sys2Proof.Machine
end

