-- ==== Sys2Proof/Certificates/Slice0/Obligations.lean ====
section
/-! DEFINITION. The statements for the provers: what the commands and the machine do, from the numbered rules of spec/. -/

open Sys2Proof Sys2Proof.Machine

/-! ### Encoding -/

/-- R82, R89: words written out from R82's bit patterns decode to the command they stand for. DATA is ignored by NOP, PRD
and BSTART (R83). -/
def Obligations.WrittenWordsDecode : Prop :=
  decode ⟨.control, 0x00000000#32, 0x12345678#32⟩ = .command (.nop .control) ∧
  decode ⟨.control, 0x1000003F#32, 0x00000007#32⟩ = .command (.pwr .control 0x3F#6 0x00000007#32) ∧
  decode ⟨.audio, 0x20000005#32, 0x00000009#32⟩ = .command (.prd .audio 0x05#6) ∧
  decode ⟨.audio, 0x30000000#32, 0x00000001#32⟩ = .command (.bstart .audio) ∧
  decode ⟨.audio, 0x40000000#32, 0x3F000000#32⟩ = .command (.smp .audio .left 0x3F000000#32) ∧
  decode ⟨.audio, 0x40000100#32, 0xBF800000#32⟩ = .command (.smp .audio .right 0xBF800000#32)

/-- R81, R89, R91: decoding the transaction of any legal command gives the command back, every operand at every value. -/
def Obligations.DecodeOfEncodeIsTheCommand : Prop :=
  ∀ i : Instr, i.wellFormed = true → decode (encode i) = .command i

/-- R89, R90: a CMD word has one meaning: the command decoded from a transaction carries its port, encodes to its CMD word,
and carries its DATA word where it uses it. -/
def Obligations.DecodedCommandCarriesTheTransaction : Prop :=
  ∀ (t : Transaction) (i : Instr), decode t = .command i →
    i.port = t.port ∧ cmdOf i = t.cmd ∧
    (∀ port pid data, i = .pwr port pid data → data = t.data) ∧
    (∀ port ch x, i = .smp port ch x → x = t.data)

/-- R89, second sentence: a CMD word decodes to a command exactly when it matches a row of the opcode table whose ports hold
its port, and the command is that row's instruction. -/
def Obligations.DecodeFollowsTheOpcodeTable : Prop :=
  (∀ t : Transaction, (∃ i, decode t = .command i) ↔
    ∃ row ∈ opcodeTable, t.cmd &&& row.mask = row.pattern ∧ t.port ∈ row.ports) ∧
  (∀ (t : Transaction) (i : Instr), decode t = .command i →
    rowOf i ∈ opcodeTable ∧ t.cmd &&& (rowOf i).mask = (rowOf i).pattern ∧ t.port ∈ (rowOf i).ports)

/-- R82: no CMD word matches two rows of the opcode table. -/
def Obligations.OpcodeRowsAreDisjoint : Prop :=
  ∀ (cmd : Word), ∀ row ∈ opcodeTable, ∀ row' ∈ opcodeTable,
    cmd &&& row.mask = row.pattern → cmd &&& row'.mask = row'.pattern → row = row'

/-- R84, R85, R86: the illegal (port, CMD) pairs are exactly those with a reserved bit set, a stray CH or PID, a reserved
opcode, or an opcode not legal on the port. -/
def Obligations.IllegalExactlyWhenTheRulesSay : Prop :=
  ∀ t : Transaction, (∃ why, decode t = .illegal why) ↔
    ((t.cmd.extractLsb' 9 19 ≠ 0#19 ∨ t.cmd.extractLsb' 6 2 ≠ 0#2) ∨
     (t.cmd.getLsbD 8 = true ∧ t.cmd.extractLsb' 28 4 ≠ 0x4#4) ∨
     (t.cmd.extractLsb' 0 6 ≠ 0#6 ∧ t.cmd.extractLsb' 28 4 ≠ 0x1#4 ∧ t.cmd.extractLsb' 28 4 ≠ 0x2#4) ∨
     (0x5 ≤ (t.cmd.extractLsb' 28 4).toNat) ∨
     (t.port = .audio ∧ t.cmd.extractLsb' 28 4 = 0x1#4) ∨
     (t.port = .control ∧ (t.cmd.extractLsb' 28 4 = 0x3#4 ∨ t.cmd.extractLsb' 28 4 = 0x4#4)))

/-- R91: each assembler form expands to the one transaction that carries its command. -/
def Obligations.AssembledFormsCarryTheirCommands : Prop :=
  ∀ (port : Port) (pid : BitVec 6) (ch : Channel) (w : Word),
    (Line.nop port).expand = some [encode (.nop port)] ∧
    (Line.pwr port pid (.hex w)).expand = some [encode (.pwr port pid w)] ∧
    (Line.prd port pid).expand = some [encode (.prd port pid)] ∧
    (Line.bstart port).expand = some [encode (.bstart port)] ∧
    (Line.smp port ch (.hex w)).expand = some [encode (.smp port ch w)]

/-! ### The step -/

/-- R67, R80: when the port that SCHEDULE names has a request and it decodes to a command, the step takes it off its
stream and is that command's meaning there. The streams and SCHEDULE are the model's own (log entry 2). -/
def Obligations.StepRunsTheArrivingCommand : Prop :=
  ∀ (s : State) (port : Port) (rest : List Port) (r : Request) (q : List Request) (i : Instr),
    s.schedule = port :: rest → s.stream port = r :: q → decode ⟨port, r.cmd, r.data⟩ = .command i →
      step s = exec i { s.setStream port q with schedule := rest }

/-- R87: an illegal command changes no element of S, its RESP is 0, and a NOP would have the same effect. How it is taken off
its stream is the model's (log entry 2). -/
def Obligations.IllegalCommandIsIgnored : Prop :=
  ∀ (s : State) (port : Port) (rest : List Port) (r : Request) (q : List Request) (why : Illegal),
    s.schedule = port :: rest → s.stream port = r :: q → decode ⟨port, r.cmd, r.data⟩ = .illegal why →
      (∃ t, step s = .next t ∧ t.blk = s.blk ∧ t.resp = 0x00000000#32) ∧
      step s = exec (.nop port) { s.setStream port q with schedule := rest }

/-- R86, R87, R207: a command on a port where it is not legal is ignored, not trapped: S is unchanged and RESP is 0. -/
def Obligations.WrongPortCommandIsIgnored : Prop :=
  ∀ (s : State) (pid : BitVec 6) (data x : Word) (ch : Channel),
    exec (.pwr .audio pid data) s = .next { s with resp := 0x00000000#32 } ∧
    exec (.bstart .control) s = .next { s with resp := 0x00000000#32 } ∧
    exec (.smp .control ch x) s = .next { s with resp := 0x00000000#32 }

/-- R211: where no command arrives, the step holds S unchanged. That it also keeps RESP and the streams, and passes over one
entry of SCHEDULE, is the model's choice (log entry 2). -/
def Obligations.IdleStepHoldsTheState : Prop :=
  ∀ s : State, (s.schedule = [] ∨ ∃ port rest, s.schedule = port :: rest ∧ s.stream port = []) →
    step s = .next { s with schedule := s.schedule.tail }

/-- R187, R200: every command, legal or illegal, on either port, in every state, completes in one step with exactly one
successor state: no step and no meaning stops. A step in which nothing arrives (log entry 2) does not stop either. -/
def Obligations.EveryCommandCompletes : Prop :=
  (∀ s : State, ∃! t, step s = .next t) ∧ (∀ (i : Instr) (s : State), ∃! t, exec i s = .next t)

/-- An instruction given as a word of the opcode table and placed as the next to arrive is the one the next step runs. The
port it is placed on and the streams are the model's choice (log entries 2 and 3). -/
def Obligations.PlacedTableWordRunsNext : Prop :=
  ∀ (s : State) (nbits w : Nat) (i : Instr), decodeTableWord nbits w = some i →
    step (s.withFetchWord nbits w) = exec i s

/-- R67: for every total order `ts` of the two ports' commands, as many steps as it has commands perform exactly those, each
seeing every change of those before it. The streams, SCHEDULE and the reading of `resp` are the model's (log entries 1, 2). -/
def Obligations.RunServesTheScheduledOrder : Prop :=
  ∀ (s : State) (ts : List Transaction), s.schedule = [] → s.control = [] → s.audio = [] →
    ∃ t : State, Host.Core.run Sys2Proof.core ts.length (s.issueAll ts) = .next t ∧
      t.blk = (s.blk.serve ts).1 ∧ t.resp = (s.blk.serve ts).2.getLastD s.resp ∧
      t.schedule = [] ∧ t.control = [] ∧ t.audio = []

/-! ### NOP and the parameter store -/

/-- R180: a NOP sets RESP to 0 and changes nothing else, on both ports; and it is the CMD word 0 and no other. -/
def Obligations.NopOnlyAnswersZero : Prop :=
  (∀ (port : Port) (s : State), exec (.nop port) s = .next { s with resp := 0x00000000#32 }) ∧
  (∀ (t : Transaction) (port : Port), decode t = .command (.nop port) ↔ t.cmd = 0x00000000#32 ∧ t.port = port)

/-- R100, R101: a PWR of an integer, enumerated or boolean parameter stores min(max(sint32(DATA), lo), hi) in that register
and changes nothing else; RESP is 0. -/
def Obligations.PwrStoresTheClampedInteger : Prop :=
  ∀ (s : State) (d : Word),
    exec (.pwr .control 0x01#6 d) s = .next { s with
      blk := { s.blk with p := { s.blk.p with dsFactor := BitVec.ofInt 32 (min (max d.toInt 1) 16) } }, resp := 0#32 } ∧
    exec (.pwr .control 0x02#6 d) s = .next { s with
      blk := { s.blk with p := { s.blk.p with bitDepth := BitVec.ofInt 32 (min (max d.toInt 2) 24) } }, resp := 0#32 } ∧
    exec (.pwr .control 0x03#6 d) s = .next { s with
      blk := { s.blk with p := { s.blk.p with crushMethod := BitVec.ofInt 32 (min (max d.toInt 0) 1) } },
      resp := 0#32 } ∧
    exec (.pwr .control 0x04#6 d) s = .next { s with
      blk := { s.blk with p := { s.blk.p with masksEnabled := BitVec.ofInt 32 (min (max d.toInt 0) 1) } },
      resp := 0#32 } ∧
    ∀ k : Fin 32, exec (.pwr .control (BitVec.ofNat 6 (0x20 + k.val)) d) s = .next { s with
      blk := { s.blk with p := { s.blk.p with mask := s.blk.p.mask.set k (BitVec.ofInt 32 (min (max d.toInt 0) 1)) } },
      resp := 0#32 }

/-- R100, R102: a PWR of MIX drops a NaN, stores +1.0 for +Inf and anything above +1, −1.0 for −Inf and anything below −1,
and every other word as it is, −0 and the subnormals too; it changes nothing else and RESP is 0. -/
def Obligations.PwrClampsMix : Prop :=
  ∀ (s : State) (d : Word),
    (isNaN d = true → exec (.pwr .control 0x00#6 d) s = .next { s with resp := 0#32 }) ∧
    (d = 0x7F800000#32 ∨ (isFinite d = true ∧ 1 < realOf d) →
      exec (.pwr .control 0x00#6 d) s = .next { s with
        blk := { s.blk with p := { s.blk.p with mix := 0x3F800000#32 } }, resp := 0#32 }) ∧
    (d = 0xFF800000#32 ∨ (isFinite d = true ∧ realOf d < -1) →
      exec (.pwr .control 0x00#6 d) s = .next { s with
        blk := { s.blk with p := { s.blk.p with mix := 0xBF800000#32 } }, resp := 0#32 }) ∧
    (isFinite d = true → -1 ≤ realOf d → realOf d ≤ 1 →
      exec (.pwr .control 0x00#6 d) s = .next { s with
        blk := { s.blk with p := { s.blk.p with mix := d } }, resp := 0#32 })

/-- R88: a PWR or PRD of a reserved id is legal: the write is dropped and the read returns 0. -/
def Obligations.ReservedIdsDropAndReadZero : Prop :=
  ∀ (s : State) (port : Port) (pid : BitVec 6) (d : Word), 0x05 ≤ pid.toNat → pid.toNat ≤ 0x1F →
    decode (encode (.pwr .control pid d)) = .command (.pwr .control pid d) ∧
    decode (encode (.prd port pid)) = .command (.prd port pid) ∧
    exec (.pwr .control pid d) s = .next { s with resp := 0#32 } ∧
    exec (.prd port pid) s = .next { s with resp := 0x00000000#32 }

/-- R103: a PRD answers the live register of its id on both ports and changes nothing. -/
def Obligations.PrdAnswersTheRegister : Prop :=
  ∀ (s : State) (port : Port),
    exec (.prd port 0x00#6) s = .next { s with resp := s.blk.p.mix } ∧
    exec (.prd port 0x01#6) s = .next { s with resp := s.blk.p.dsFactor } ∧
    exec (.prd port 0x02#6) s = .next { s with resp := s.blk.p.bitDepth } ∧
    exec (.prd port 0x03#6) s = .next { s with resp := s.blk.p.crushMethod } ∧
    exec (.prd port 0x04#6) s = .next { s with resp := s.blk.p.masksEnabled } ∧
    ∀ k : Fin 32, exec (.prd port (BitVec.ofNat 6 (0x20 + k.val))) s = .next { s with resp := s.blk.p.mask[k] }

/-- R63: a PWR, on whatever port and id, changes no parameter register but that of its id, and no other element of S. -/
def Obligations.PwrTouchesOneRegister : Prop :=
  ∀ (s t : State) (port : Port) (pid pid' : BitVec 6) (d : Word), exec (.pwr port pid d) s = .next t →
    (pid' ≠ pid → t.blk.p.read pid' = s.blk.p.read pid') ∧
    t = { s with blk := { s.blk with p := t.blk.p }, resp := 0#32 }

/-- 95_test_vectors.md V-R (D30): writing every saved word of a legal set of parameters back restores all of it. -/
def Obligations.RestoreOfSavedParametersIsExact : Prop :=
  ∀ p q : Params, p.Legal →
    (List.finRange 64).foldl (fun acc n => acc.write (BitVec.ofFin n) (p.read (BitVec.ofFin n))) q = p

/-! ### BSTART and the gains -/

/-- R181: BSTART copies P into CFG, writes the gains of the mix value, zeroes both phases, and leaves P, HELD and the cache
as they were; RESP is 0. -/
def Obligations.BstartSnapshotsParameters : Prop :=
  ∀ s : State, exec (.bstart .audio) s = .next { s with
    blk := { s.blk with
      cfg := ⟨s.blk.p.mix, s.blk.p.dsFactor, s.blk.p.bitDepth, s.blk.p.crushMethod, s.blk.p.masksEnabled,
        maskVecOf s.blk.p.mask⟩
      wg := wetGain s.blk.p.mix
      dg := dryGain s.blk.p.mix
      left := { s.blk.left with ph := 0#4 }
      right := { s.blk.right with ph := 0#4 } }
    resp := 0x00000000#32 }

/-- R42: bit k of CFG.MASKVEC is the VALUE, bit 0, that P.MASK[k] has at the snapshot BSTART takes; at reset it is 0. -/
def Obligations.MaskVecBitIsMaskValue : Prop :=
  (∀ (m : Vector Word 32) (k : Fin 32), (maskVecOf m).getLsbD k.val = m[k].getLsbD 0) ∧
  (∀ s : State, ∃ t, exec (.bstart .audio) s = .next t ∧
    ∀ k : Fin 32, t.blk.cfg.maskVec.getLsbD k.val = s.blk.p.mask[k].getLsbD 0) ∧
  State.reset.blk.cfg.maskVec = 0x00000000#32

/-- R20, R160, R161(f): for every legal mix value m and p = (real(m) + 1)/4, the gains are the correctly rounded real sine
and cosine of π·p, and +0 where that is 0. -/
def Obligations.GainsAreCorrectlyRounded : Prop :=
  ∀ m : Word, MixLegal m →
    (Real.sin (Real.pi * (((realOf m : ℚ) : ℝ) + 1) / 4) = 0 → wetGain m = 0x00000000#32) ∧
    (Real.sin (Real.pi * (((realOf m : ℚ) : ℝ) + 1) / 4) ≠ 0 →
      IsRN32 (Real.sin (Real.pi * (((realOf m : ℚ) : ℝ) + 1) / 4)) (wetGain m)) ∧
    (Real.cos (Real.pi * (((realOf m : ℚ) : ℝ) + 1) / 4) = 0 → dryGain m = 0x00000000#32) ∧
    (Real.cos (Real.pi * (((realOf m : ℚ) : ℝ) + 1) / 4) ≠ 0 →
      IsRN32 (Real.cos (Real.pi * (((realOf m : ℚ) : ℝ) + 1) / 4)) (dryGain m))

/-- R160, R161(a) and R20's reference words: the gains at the ends of the mix range and next to them. -/
def Obligations.GainsAtTheEnds : Prop :=
  (wetGain 0xBF800000#32, dryGain 0xBF800000#32) = (0x00000000#32, 0x3F800000#32) ∧
  (wetGain 0x3F800000#32, dryGain 0x3F800000#32) = (0x3F800000#32, 0x00000000#32) ∧
  (wetGain 0xBF7FFFFF#32, dryGain 0xBF7FFFFF#32) = (0x33490FDB#32, 0x3F800000#32) ∧
  (wetGain 0x3F7FFFFF#32, dryGain 0x3F7FFFFF#32) = (0x3F800000#32, 0x33490FDB#32)

/-- R161(b): the gains lie in [0, 1], and neither is negative zero, subnormal, infinite or a NaN. -/
def Obligations.GainsStayInTheUnitRange : Prop :=
  ∀ m : Word, MixLegal m → ∀ g ∈ [wetGain m, dryGain m],
    isFinite g = true ∧ 0 ≤ realOf g ∧ realOf g ≤ 1 ∧ g ≠ 0x80000000#32 ∧ isSubnormal g = false

/-- R161(c): WG(m) = DG(−m) for every legal m. -/
def Obligations.GainsAreSymmetric : Prop :=
  ∀ m : Word, MixLegal m → wetGain m = dryGain (m ^^^ 0x80000000#32)

/-- R161(d): the wet gain does not fall, and the dry gain does not rise, as real(m) rises. -/
def Obligations.GainsAreMonotone : Prop :=
  ∀ m m' : Word, MixLegal m → MixLegal m' → realOf m ≤ realOf m' →
    realOf (wetGain m) ≤ realOf (wetGain m') ∧ realOf (dryGain m') ≤ realOf (dryGain m)

/-- R161(e), R164: equal power, within 2^−22 for every legal mix value and exactly at the ends. -/
def Obligations.GainsHaveEqualPower : Prop :=
  (∀ m : Word, MixLegal m → |realOf (wetGain m) ^ 2 + realOf (dryGain m) ^ 2 - 1| ≤ 1 / 2 ^ 22) ∧
  (∀ m : Word, m = 0xBF800000#32 ∨ m = 0x3F800000#32 → realOf (wetGain m) ^ 2 + realOf (dryGain m) ^ 2 = 1)

/-! ### The stages of SMP -/

/-- R182, with R130, R132, R135, R151, R120, R121, R162, R165: what an SMP on the Audio port answers and writes, and that
it leaves the other channel, P, CFG, the gains and the ports alone. The cache is refilled in Quantize mode only. -/
def Obligations.SmpRunsTheFourStages : Prop :=
  ∀ (s : State) (c : Channel) (x : Word), s.blk.Inv →
    let cfg := s.blk.cfg
    let y1 := if cfg.crushMethod = 0#32 then quantizeBy (qtab cfg.bitDepth.toNat) x
      else x &&& tmask cfg.bitDepth.toNat
    let y2 := if cfg.masksEnabled = 0#32 then y1 else y1 &&& ~~~cfg.maskVec
    let w := if (s.blk.chan c).ph = 0#4 then y2 else (s.blk.chan c).held
    ∃ t : State, exec (.smp .audio c x) s = .next t ∧
      t.resp = add32 (mul32 s.blk.dg x) (mul32 s.blk.wg w) ∧
      (t.blk.chan c).held = w ∧
      (t.blk.chan c).ph.toNat = ((s.blk.chan c).ph.toNat + 1) % cfg.dsFactor.toNat ∧
      (∀ d, d ≠ c → t.blk.chan d = s.blk.chan d) ∧
      t.blk.p = s.blk.p ∧ t.blk.cfg = s.blk.cfg ∧ t.blk.wg = s.blk.wg ∧ t.blk.dg = s.blk.dg ∧
      (t.blk.qcBd, t.blk.qcQ) = (if cfg.crushMethod = 0#32 then (cfg.bitDepth.toNat, qtab cfg.bitDepth.toNat)
        else (s.blk.qcBd, s.blk.qcQ)) ∧
      t.control = s.control ∧ t.audio = s.audio ∧ t.schedule = s.schedule

/-- R131, R132, R133: Quantize divides by the quantum, truncates toward zero, and multiplies back, whatever a coherent cache
held; NaN gives QNAN, an infinite quotient is returned, and a zero level is +0. It leaves the quantum in the cache. -/
def Obligations.QuantizeTruncatesTowardZero : Prop :=
  ∀ (blk : Block) (x : Word) (b : Nat), blk.CacheCoherent → 2 ≤ b → b ≤ 24 →
    let t := div32 x (qtab b)
    let k : ℤ := if 0 ≤ realOf t then ⌊realOf t⌋ else ⌈realOf t⌉
    (isNaN t = true → (blk.quantize x b).2 = qnan) ∧
    (isInf t = true → (blk.quantize x b).2 = t) ∧
    (isFinite t = true → k = 0 → (blk.quantize x b).2 = 0x00000000#32) ∧
    (isFinite t = true → k ≠ 0 → (blk.quantize x b).2 = mul32 (qtab b) (f32OfInt k)) ∧
    (blk.quantize x b).1 = { blk with qcBd := b, qcQ := qtab b }

/-- R131's corner cases: a NaN gives QNAN, an infinity itself, a zero or subnormal +0; no result is −0 or subnormal. -/
def Obligations.QuantizeOfSpecialValues : Prop :=
  ∀ (x : Word) (b : Nat), 2 ≤ b → b ≤ 24 →
    (isNaN x = true → quantizeBy (qtab b) x = 0x7FC00000#32) ∧
    (isInf x = true → quantizeBy (qtab b) x = x) ∧
    (isZero x = true ∨ isSubnormal x = true → quantizeBy (qtab b) x = 0x00000000#32) ∧
    quantizeBy (qtab b) x ≠ 0x80000000#32 ∧ isSubnormal (quantizeBy (qtab b) x) = false

/-- R136(a): Quantize is odd, but for the results +0 and QNAN, which both signs share. -/
def Obligations.QuantizeIsOdd : Prop :=
  ∀ (x : Word) (b : Nat), 2 ≤ b → b ≤ 24 →
    (quantizeBy (qtab b) x ≠ 0x00000000#32 → quantizeBy (qtab b) x ≠ qnan →
      quantizeBy (qtab b) (x ^^^ 0x80000000#32) = quantizeBy (qtab b) x ^^^ 0x80000000#32) ∧
    (quantizeBy (qtab b) x = 0x00000000#32 → quantizeBy (qtab b) (x ^^^ 0x80000000#32) = 0x00000000#32) ∧
    (quantizeBy (qtab b) x = qnan → quantizeBy (qtab b) (x ^^^ 0x80000000#32) = qnan)

/-- R136(d): at b = 2 the inputs in [−1, 1] have exactly seven outputs, and those in [0, 1) exactly three. -/
def Obligations.TwoBitQuantizeLevels : Prop :=
  (∀ w : Word, (∃ x : Word, isFinite x = true ∧ -1 ≤ realOf x ∧ realOf x ≤ 1 ∧ quantizeBy (qtab 2) x = w) ↔
    w ∈ [0x3F800000#32, 0xBF800000#32, 0x3F2AAAAB#32, 0xBF2AAAAB#32, 0x3EAAAAAB#32, 0xBEAAAAAB#32, 0x00000000#32]) ∧
  (∀ w : Word, (∃ x : Word, isFinite x = true ∧ 0 ≤ realOf x ∧ realOf x < 1 ∧ quantizeBy (qtab 2) x = w) ↔
    w ∈ [0x00000000#32, 0x3EAAAAAB#32, 0x3F2AAAAB#32])

/-- R135: for s in 3..25 the shift pair is the mask of the bits from s up; so Truncate clears the 27 − b low bits. -/
def Obligations.TruncateClearsTheLowBits : Prop :=
  (∀ (x : Word) (s : Nat), 3 ≤ s → s ≤ 25 →
    (x.sshiftRight s) <<< s = x &&& ~~~((1#32 <<< s) - 1#32) ∧ x &&& ~~~((1#32 <<< s) - 1#32) = x &&& tmask (27 - s)) ∧
  (∀ (x : Word) (b : Nat), 2 ≤ b → b ≤ 24 →
    truncate x b = x &&& tmask b ∧
    ∀ k, k < 32 → (truncate x b).getLsbD k = (decide (27 - b ≤ k) && x.getLsbD k))

/-- R134's corner cases: Truncate keeps the sign; a quiet NaN stays a NaN for b ≥ 5, every NaN becomes the infinity of its
sign at b = 4, and an infinity or NaN becomes finite at b ≤ 3. -/
def Obligations.TruncateOfNonFiniteValues : Prop :=
  ∀ (x : Word) (b : Nat), 2 ≤ b → b ≤ 24 →
    signBit (truncate x b) = signBit x ∧
    (isQuietNaN x = true → 5 ≤ b → isNaN (truncate x b) = true) ∧
    (isNaN x = true → b = 4 → truncate x b = infOf (signBit x)) ∧
    (isFinite x = false → b ≤ 3 → isFinite (truncate x b) = true)

/-- R150, R151: the loop of the Bitmask stage returns y & ~MASKVEC whatever the order of the bits and however often each is
taken, and the disabled stage is the identity. -/
def Obligations.BitmaskIsAndNotInAnyOrder : Prop :=
  (∀ (v y : Word) (ks : List (Fin 32)), (∀ k, k ∈ ks) →
    ks.foldl (fun r k => if v.getLsbD k.val then r &&& ~~~(bitMask k.val) else r) y = y &&& ~~~v) ∧
  (∀ (cfg : Snapshot) (y : Word), cfg.masksEnabled ≠ 0#32 → bitmask cfg y = y &&& ~~~cfg.maskVec) ∧
  (∀ (cfg : Snapshot) (y : Word), cfg.masksEnabled = 0#32 → bitmask cfg y = y)

/-- R152: neither Bitmask nor Truncate turns a finite value into an infinity or a NaN. -/
def Obligations.BitStagesKeepFiniteValuesFinite : Prop :=
  (∀ (cfg : Snapshot) (y : Word), isFinite y = true → isFinite (bitmask cfg y) = true) ∧
  (∀ (x : Word) (b : Nat), 2 ≤ b → b ≤ 24 → isFinite x = true → isFinite (truncate x b) = true)

/-- R163 at CFG.MIX = −1.0, from R162: the output is dry bit for bit when wet is finite, but for a subnormal dry, which
counts as the zero of its sign, a −0 dry beside a +0 product, and a NaN dry; a non-finite wet gives QNAN. For a negative
subnormal dry beside a +0 product R162 gives +0, where R163's remark says −0: log entry 10. -/
def Obligations.FullyDryMixIsTheDrySample : Prop :=
  ∀ dry wet : Word,
    let out := mixWith 0x00000000#32 0x3F800000#32 dry wet
    let product := mul32 0x00000000#32 wet
    (isNaN dry = false → isSubnormal dry = false → isFinite wet = true →
      ¬(dry = 0x80000000#32 ∧ product = 0x00000000#32) → out = dry) ∧
    (dry = 0x80000000#32 → isFinite wet = true → product = 0x00000000#32 → out = 0x00000000#32) ∧
    (isSubnormal dry = true → isFinite wet = true →
      out = if signBit dry = true ∧ product = 0x80000000#32 then 0x80000000#32 else 0x00000000#32) ∧
    (isNaN dry = true → out = qnan) ∧
    (isFinite wet = false → out = qnan)

/-- R162 at CFG.MIX = +1.0 (R163): the output is wet bit for bit under the same conditions with dry and wet exchanged. For a
negative subnormal wet beside a +0 product R162 gives +0, where R163's remark says −0: log entry 10. -/
def Obligations.FullyWetMixIsTheWetSample : Prop :=
  ∀ dry wet : Word,
    let out := mixWith 0x3F800000#32 0x00000000#32 dry wet
    let product := mul32 0x00000000#32 dry
    (isNaN wet = false → isSubnormal wet = false → isFinite dry = true →
      ¬(wet = 0x80000000#32 ∧ product = 0x00000000#32) → out = wet) ∧
    (wet = 0x80000000#32 → isFinite dry = true → product = 0x00000000#32 → out = 0x00000000#32) ∧
    (isSubnormal wet = true → isFinite dry = true →
      out = if signBit wet = true ∧ product = 0x80000000#32 then 0x80000000#32 else 0x00000000#32) ∧
    (isNaN wet = true → out = qnan) ∧
    (isFinite dry = false → out = qnan)

/-! ### The binary32 primitives -/

/-- R16: Mul32 is the correctly rounded product of its operands after DAZ, flushed, with IEEE-754's special cases. -/
def Obligations.MulIsCorrectlyRounded : Prop :=
  ∀ a b : Word,
    let a' := daz a
    let b' := daz b
    let s := signBit a' != signBit b'
    (isNaN a' = true ∨ isNaN b' = true → mul32 a b = qnan) ∧
    ((isInf a' = true ∧ isZero b' = true) ∨ (isZero a' = true ∧ isInf b' = true) → mul32 a b = qnan) ∧
    ((isInf a' = true ∧ isNaN b' = false ∧ isZero b' = false) ∨
      (isInf b' = true ∧ isNaN a' = false ∧ isZero a' = false) → mul32 a b = infOf s) ∧
    (isFinite a' = true → isFinite b' = true → realOf a' * realOf b' = 0 → mul32 a b = zeroOf s) ∧
    (isFinite a' = true → isFinite b' = true → realOf a' * realOf b' ≠ 0 →
      ∃ w, IsRN32 ((realOf a' * realOf b' : ℚ) : ℝ) w ∧ mul32 a b = ftz w)

/-- R17: Div32 is the correctly rounded quotient of its operands after DAZ, flushed, with IEEE-754's special cases. -/
def Obligations.DivIsCorrectlyRounded : Prop :=
  ∀ a b : Word,
    let a' := daz a
    let b' := daz b
    let s := signBit a' != signBit b'
    (isNaN a' = true ∨ isNaN b' = true → div32 a b = qnan) ∧
    ((isInf a' = true ∧ isInf b' = true) ∨ (isZero a' = true ∧ isZero b' = true) → div32 a b = qnan) ∧
    ((isInf a' = true ∧ isFinite b' = true) ∨ (isZero b' = true ∧ isFinite a' = true ∧ isZero a' = false) →
      div32 a b = infOf s) ∧
    ((isInf b' = true ∧ isFinite a' = true) ∨ (isZero a' = true ∧ isFinite b' = true ∧ isZero b' = false) →
      div32 a b = zeroOf s) ∧
    (isFinite a' = true → isFinite b' = true → isZero a' = false → isZero b' = false →
      ∃ w, IsRN32 ((realOf a' / realOf b' : ℚ) : ℝ) w ∧ div32 a b = ftz w)

/-- R18: Add32 is the correctly rounded sum of its operands after DAZ, flushed, with IEEE-754's special cases; an exact zero
sum is −0 only for two −0; and Add32 is commutative. -/
def Obligations.AddIsCorrectlyRounded : Prop :=
  (∀ a b : Word,
    let a' := daz a
    let b' := daz b
    (isNaN a' = true ∨ isNaN b' = true → add32 a b = qnan) ∧
    (isInf a' = true → isInf b' = true → signBit a' ≠ signBit b' → add32 a b = qnan) ∧
    (isInf a' = true → (isFinite b' = true ∨ b' = a') → add32 a b = a') ∧
    (isInf b' = true → (isFinite a' = true ∨ a' = b') → add32 a b = b') ∧
    (isFinite a' = true → isFinite b' = true → realOf a' + realOf b' = 0 →
      add32 a b = if a' = 0x80000000#32 ∧ b' = 0x80000000#32 then 0x80000000#32 else 0x00000000#32) ∧
    (isFinite a' = true → isFinite b' = true → realOf a' + realOf b' ≠ 0 →
      ∃ w, IsRN32 ((realOf a' + realOf b' : ℚ) : ℝ) w ∧ add32 a b = ftz w)) ∧
  (∀ a b : Word, add32 a b = add32 b a)

/-- R13, R15, R201: every NaN the arithmetic answers is exactly QNAN and no result is subnormal; so the RESP of an SMP is
never a subnormal, and a NaN only as QNAN. -/
def Obligations.ArithmeticAnswersAreCanonical : Prop :=
  (∀ a b : Word, ∀ w ∈ [mul32 a b, div32 a b, add32 a b],
    (isNaN w = true → w = 0x7FC00000#32) ∧ isSubnormal w = false) ∧
  (∀ (s t : State) (c : Channel) (x : Word), exec (.smp .audio c x) s = .next t →
    (isNaN t.resp = true → t.resp = 0x7FC00000#32) ∧ isSubnormal t.resp = false)

/-- R19: F32(k) of the truncation k of a finite word is the word of value exactly k, and +0 for k = 0. -/
def Obligations.IntegerConversionIsExact : Prop :=
  ∀ b : Word, isFinite b = true →
    isFinite (f32OfInt (truncInt b)) = true ∧ realOf (f32OfInt (truncInt b)) = (truncInt b : ℚ) ∧
    f32OfInt 0 = 0x00000000#32

/-- R47, R49: BITMASK[k] has exactly bit k set; TMASK[b] has ones from bit 27 − b up and zeros below, and the listed
values. -/
def Obligations.MaskTablesAreTheirFormulas : Prop :=
  (∀ k j : Nat, k < 32 → j < 32 → (bitMask k).getLsbD j = decide (j = k)) ∧
  (∀ b j : Nat, 2 ≤ b → b ≤ 24 → j < 32 → (tmask b).getLsbD j = decide (27 - b ≤ j)) ∧
  (List.range 23).map (fun n => tmask (n + 2)) =
    [0xFE000000#32, 0xFF000000#32, 0xFF800000#32, 0xFFC00000#32, 0xFFE00000#32, 0xFFF00000#32, 0xFFF80000#32,
     0xFFFC0000#32, 0xFFFE0000#32, 0xFFFF0000#32, 0xFFFF8000#32, 0xFFFFC000#32] ++
    [0xFFFFE000#32, 0xFFFFF000#32, 0xFFFFF800#32, 0xFFFFFC00#32, 0xFFFFFE00#32, 0xFFFFFF00#32, 0xFFFFFF80#32,
     0xFFFFFFC0#32, 0xFFFFFFE0#32, 0xFFFFFFF0#32, 0xFFFFFFF8#32]

/-- R48: QTAB[b] is RN32(1/(2^b − 1)) and has the table's values. -/
def Obligations.QuantumTableIsTheReciprocals : Prop :=
  (∀ b : Nat, 2 ≤ b → b ≤ 24 → IsRN32 (1 / (2 ^ b - 1)) (qtab b)) ∧
  (List.range 23).map (fun n => qtab (n + 2)) =
    [0x3EAAAAAB#32, 0x3E124925#32, 0x3D888889#32, 0x3D042108#32, 0x3C820821#32, 0x3C010204#32, 0x3B808081#32,
     0x3B004020#32, 0x3A802008#32, 0x3A001002#32, 0x39800801#32, 0x39000400#32] ++
    [0x38800200#32, 0x38000100#32, 0x37800080#32, 0x37000040#32, 0x36800020#32, 0x36000010#32, 0x35800008#32,
     0x35000004#32, 0x34800002#32, 0x34000001#32, 0x33800001#32]

/-! ### Streams of commands -/

/-- R122, with R120 and R121: within one block of one channel's samples, the wet sample mixed at index i is the Bitmask-stage
output of the sample of index N·⌊i/N⌋, N the block's downsample factor. -/
def Obligations.HoldPatternOfABlock : Prop :=
  ∀ (b : Block) (c : Channel) (xs : List Word), b.Inv →
    let b0 := b.bstart.1
    let n := b.p.dsFactor.toNat
    let shaped := fun x => bitmask b0.cfg (if b.p.crushMethod = 0#32 then quantizeBy (qtab b.p.bitDepth.toNat) x
      else truncate x b.p.bitDepth.toNat)
    ∀ i, i < xs.length →
      (b0.serve (xs.map (smpOn c))).2[i]? =
        some (mixWith b0.wg b0.dg (xs.getD i 0#32) (shaped (xs.getD (n * (i / n)) 0#32)))

/-- R121, R45: after a BSTART and any stream of commands without another, the phase of a channel is the number of its SMPs
modulo CFG.DS_FACTOR. -/
def Obligations.PhaseCountsSamplesModuloFactor : Prop :=
  ∀ (b : Block) (c : Channel) (ts : List Transaction), b.Inv → (∀ t ∈ ts, isBstart t = false) →
    ((b.bstart.1.serve ts).1.chan c).ph.toNat = ts.countP (isSmpOf c) % b.p.dsFactor.toNat

/-- R183: the RESP words of one channel do not depend on the other channel's samples or on how the two are interleaved: they
are those of the channel's own samples alone. -/
def Obligations.ChannelsAreIndependent : Prop :=
  ∀ (b : Block) (c : Channel) (l : List (Channel × Word)), b.Inv →
    responsesOf c l (b.serve (smpStream l)).2 = (b.serve (smpStream (l.filter fun cx => cx.1 == c))).2

/-- R68, R224: commands other than SMP that fall inside a block, parameter writes among them, change no RESP of its SMPs. -/
def Obligations.WritesInsideABlockAreInvisible : Prop :=
  ∀ (b : Block) (ts : List Transaction), b.Inv → (∀ t ∈ ts, isBstart t = false) →
    ((ts.zip (b.serve ts).2).filter fun p => isSmp p.1).map Prod.snd = (b.serve (ts.filter isSmp)).2

/-- R123, R44, 92_eei_decisions.md D30: from a BSTART on, every RESP is decided by P alone: no held value, phase, old
configuration or cache content from before reaches an output. -/
def Obligations.OutputsAfterBstartDependOnParameters : Prop :=
  ∀ (b b' : Block) (ts : List Transaction), b.Inv → b'.Inv → b.p = b'.p →
    (b.serve (encode (.bstart .audio) :: ts)).2 = (b'.serve (encode (.bstart .audio) :: ts)).2

/-- R186, R183: the arrays of `pblock` are those of two blocks of one channel each: the order of the channels in the call
decides nothing. -/
def Obligations.PblockTreatsEachChannelAlone : Prop :=
  ∀ (b : Block) (l r : List Word), b.Inv → l.length = r.length →
    (b.runPblock l r).2.1 = (b.bstart.1.serve (l.map (smpOn .left))).2 ∧
    (b.runPblock l r).2.2 = (b.bstart.1.serve (r.map (smpOn .right))).2

/-- R221: an SMP stream after RESET with no BSTART answers as if RESET were followed by a BSTART, which is Quantize at b = 24
mixed fully wet, and not the identity. -/
def Obligations.BlockIsOpenAfterReset : Prop :=
  (∀ ts : List Transaction,
    (Block.reset.serve ts).2 = (Block.reset.serve (encode (.bstart .audio) :: ts)).2.tail) ∧
  (∀ (c : Channel) (x : Word), ∃ t, exec (.smp .audio c x) State.reset = .next t ∧
    t.resp = mixWith 0x3F800000#32 0x00000000#32 x (quantizeBy (qtab 24) x)) ∧
  (∃ t, exec (.smp .audio .left 0x3E800000#32) State.reset = .next t ∧ t.resp = 0x3E7FFFFE#32)

/-! ### The state -/

/-- R51, R220: the value of every element of S after RESET. -/
def Obligations.ResetWritesEveryElement : Prop :=
  State.reset.blk.p.mix = 0x3F800000#32 ∧ State.reset.blk.p.dsFactor = 1#32 ∧ State.reset.blk.p.bitDepth = 24#32 ∧
  State.reset.blk.p.crushMethod = 0#32 ∧ State.reset.blk.p.masksEnabled = 1#32 ∧
  (∀ k : Fin 32, State.reset.blk.p.mask[k] = 0#32) ∧
  State.reset.blk.cfg = ⟨0x3F800000#32, 1#32, 24#32, 0#32, 1#32, 0x00000000#32⟩ ∧
  State.reset.blk.wg = 0x3F800000#32 ∧ State.reset.blk.dg = 0x00000000#32 ∧
  (∀ c : Channel, (State.reset.blk.chan c).held = 0x00000000#32 ∧ (State.reset.blk.chan c).ph = 0#4) ∧
  State.reset.blk.qcBd = 0 ∧ State.reset.blk.qcQ = 0x00000000#32

/-- R40, R41, R43, R45, R46 at RESET: the invariant of the reachable states holds of the reset state. -/
def Obligations.ResetStateIsLegal : Prop := State.reset.blk.Inv

/-- R40, R41, R43, R45, R46: every step keeps every parameter and CFG field legal, the gains those of CFG.MIX, each phase
below CFG.DS_FACTOR, and the cache empty or coherent. -/
def Obligations.EveryStepKeepsTheStateLegal : Prop :=
  ∀ s t : State, s.blk.Inv → step s = .next t → t.blk.Inv

/-- R30, R41, R43 to R46, R63: which command can change which element of S. -/
def Obligations.EachElementHasItsWriter : Prop :=
  ∀ (i : Instr) (s t : State), exec i s = .next t →
    (t.blk.p ≠ s.blk.p → ∃ pid d, i = .pwr .control pid d) ∧
    (t.blk.cfg ≠ s.blk.cfg ∨ t.blk.wg ≠ s.blk.wg ∨ t.blk.dg ≠ s.blk.dg → i = .bstart .audio) ∧
    (∀ c, (t.blk.chan c).held ≠ (s.blk.chan c).held → (s.blk.chan c).ph = 0#4 ∧ ∃ x, i = .smp .audio c x) ∧
    (∀ c, (t.blk.chan c).ph ≠ (s.blk.chan c).ph → i = .bstart .audio ∨ ∃ x, i = .smp .audio c x) ∧
    (t.blk.qcBd ≠ s.blk.qcBd ∨ t.blk.qcQ ≠ s.blk.qcQ →
      s.blk.cfg.crushMethod = 0#32 ∧ ∃ c x, i = .smp .audio c x)

/-- R207, R212: no step that serves the Audio port changes a parameter register, and no step that serves the Control port
changes anything of S but the parameter registers. -/
def Obligations.PortsWriteOnlyTheirOwnState : Prop :=
  ∀ (s t : State), step s = .next t →
    (s.schedule.head? = some .audio → t.blk.p = s.blk.p) ∧
    (s.schedule.head? = some .control → t.blk = { s.blk with p := t.blk.p })
end

