-- ==== Sys2Proof/Laws/Binary32.lean ====
section
/-! SUPPORT. The binary32 primitives: the fields of a word given as a number, the value of a word, and that `rn32` is R14's
round-to-nearest-even. -/

namespace Sys2Proof.Laws

open Sys2Proof.Machine

theorem expField_eq (b : Word) : expField b = b.toNat / 2 ^ 23 % 256 := by
  simp [expField, BitVec.extractLsb'_toNat, Nat.shiftRight_eq_div_pow]

theorem fracField_eq (b : Word) : fracField b = b.toNat % 2 ^ 23 := by
  simp [fracField, BitVec.extractLsb'_toNat]

theorem signBit_eq (b : Word) : signBit b = decide (2 ^ 31 ≤ b.toNat) := by
  have h : signBit b = b.msb := by simp [signBit, BitVec.msb_eq_getLsbD_last]
  rw [h, BitVec.msb_eq_decide]

theorem fracField_lt (b : Word) : fracField b < 2 ^ 23 := by
  rw [fracField_eq]; exact Nat.mod_lt _ (by decide)

theorem expField_lt (b : Word) : expField b < 256 := by
  rw [expField_eq]; exact Nat.mod_lt _ (by decide)

/-- The word of low 31 bits `n` and sign `neg`. -/
theorem toNat_signed (neg : Bool) {n : Nat} (h : n < 2 ^ 31) :
    (BitVec.ofNat 32 (n + if neg then 2 ^ 31 else 0)).toNat = n + if neg then 2 ^ 31 else 0 := by
  rw [BitVec.toNat_ofNat]; apply Nat.mod_eq_of_lt; split <;> omega

theorem signBit_signed (neg : Bool) {n : Nat} (h : n < 2 ^ 31) :
    signBit (BitVec.ofNat 32 (n + if neg then 2 ^ 31 else 0)) = neg := by
  rw [signBit_eq, toNat_signed neg h]; cases neg <;> simp; omega

theorem expField_signed (neg : Bool) {n : Nat} (h : n < 2 ^ 31) :
    expField (BitVec.ofNat 32 (n + if neg then 2 ^ 31 else 0)) = n / 2 ^ 23 := by
  rw [expField_eq, toNat_signed neg h]; split <;> omega

theorem fracField_signed (neg : Bool) {n : Nat} (h : n < 2 ^ 31) :
    fracField (BitVec.ofNat 32 (n + if neg then 2 ^ 31 else 0)) = n % 2 ^ 23 := by
  rw [fracField_eq, toNat_signed neg h]; split <;> omega

/-- The magnitude of a word whose fields are those of k quanta exponent and n quanta: n · 2^k units. -/
theorem mag_signed (neg : Bool) {k n : Nat} (hk : k = 0 ∨ 2 ^ 23 ≤ n) (hn : n ≤ 2 ^ 24)
    (h : k * 2 ^ 23 + n < 2 ^ 31) :
    mag (BitVec.ofNat 32 (k * 2 ^ 23 + n + if neg then 2 ^ 31 else 0)) = n * 2 ^ k := by
  rw [mag, expField_signed neg h, fracField_signed neg h]
  rcases Nat.lt_or_ge n (2 ^ 23) with hlt | hge
  · obtain rfl : k = 0 := by omega
    rw [if_pos (by omega)]; simp; omega
  · rw [if_neg (by omega)]
    rcases Nat.lt_or_ge n (2 ^ 24) with h24 | h24
    · have e1 : (k * 2 ^ 23 + n) / 2 ^ 23 - 1 = k := by omega
      have e2 : 2 ^ 23 + (k * 2 ^ 23 + n) % 2 ^ 23 = n := by omega
      rw [e1, e2]
    · have e1 : (k * 2 ^ 23 + n) / 2 ^ 23 - 1 = k + 1 := by omega
      have e2 : 2 ^ 23 + (k * 2 ^ 23 + n) % 2 ^ 23 = 2 ^ 23 := by omega
      have e3 : n = 2 ^ 24 := by omega
      rw [e1, e2, e3]; ring

/-- Every word is k · 2^23 + n below its sign, with n quanta of exponent k: the decomposition R14 rounds to. -/
theorem mag_eq_quanta (b : Word) : ∃ k n, (k = 0 ∨ 2 ^ 23 ≤ n) ∧ n < 2 ^ 24 ∧
    b.toNat % 2 ^ 31 = k * 2 ^ 23 + n ∧ mag b = n * 2 ^ k := by
  have hx := b.isLt
  by_cases h : expField b = 0
  · refine ⟨0, fracField b, Or.inl rfl, by have := fracField_lt b; omega, ?_, by simp [mag, h]⟩
    rw [expField_eq] at h; rw [fracField_eq]; omega
  · refine ⟨expField b - 1, 2 ^ 23 + fracField b, Or.inr (by omega), by have := fracField_lt b; omega, ?_,
      by simp [mag, h]⟩
    rw [expField_eq] at *; rw [fracField_eq]; omega

theorem roundHalfEven_spec (num : Nat) {den : Nat} (hd : 0 < den) :
    NearestEven ((num : ℝ) / den) (roundHalfEven num den) := by
  have hd' : (0 : ℝ) < den := by exact_mod_cast hd
  have hmod : num % den < den := Nat.mod_lt _ hd
  have hdiv : (num : ℝ) = den * (num / den : ℕ) + (num % den : ℕ) := by
    exact_mod_cast (Nat.div_add_mod num den).symm
  have hfrac : (num : ℝ) / den - (num / den : ℕ) = (num % den : ℕ) / den := by
    rw [hdiv]; field_simp; simp
  unfold NearestEven roundHalfEven
  simp only
  split
  · rename_i h
    left
    rw [hfrac, abs_of_nonneg (by positivity), div_lt_iff₀ hd']
    have : (2 : ℝ) * (num % den : ℕ) < den := by exact_mod_cast h
    linarith
  · split
    · rename_i h1 h2
      left
      have : (num : ℝ) / den - ((num / den + 1 : ℕ) : ℝ) = (num % den : ℕ) / den - 1 := by
        push_cast; rw [← hfrac]; ring
      rw [this, abs_lt]
      have h2' : (den : ℝ) < 2 * (num % den : ℕ) := by exact_mod_cast h2
      have h3 : ((num % den : ℕ) : ℝ) < den := by exact_mod_cast hmod
      constructor
      · rw [lt_sub_iff_add_lt, lt_div_iff₀ hd']; linarith
      · rw [sub_lt_iff_lt_add, div_lt_iff₀ hd']; linarith
    · rename_i h1 h2
      have hhalf : ((num % den : ℕ) : ℝ) / den = 1 / 2 := by
        have : (2 : ℝ) * (num % den : ℕ) = den := by
          exact_mod_cast (by omega : 2 * (num % den) = den)
        rw [div_eq_iff hd'.ne']; linarith
      right
      rcases Nat.mod_two_eq_zero_or_one (num / den) with h | h
      · rw [h, Nat.add_zero, hfrac, hhalf]
        exact ⟨by norm_num, Nat.even_iff.2 h⟩
      · refine ⟨?_, by rw [h]; exact Nat.even_iff.2 (by omega)⟩
        have : (num : ℝ) / den - ((num / den + num / den % 2 : ℕ) : ℝ) = (num % den : ℕ) / den - 1 := by
          rw [h]; push_cast; rw [← hfrac]; ring
        rw [this, hhalf]; norm_num

/-- R14's quantum of a magnitude of `r` units: 2^k units, where k is 0 below 2^24 units and the excess of the leading
bit over 23 elsewhere. -/
theorem quantumOf_units {r : ℝ} {k : Nat} (hr : 0 < r) (hlo : k = 0 ∨ (2 : ℝ) ^ (23 + k) ≤ r)
    (hhi : r < (2 : ℝ) ^ (24 + k)) (neg : Bool) :
    QuantumOf ((if neg then -1 else 1) * (r / 2 ^ 149)) ((2 : ℝ) ^ k / 2 ^ 149) := by
  have habs : |(if neg then (-1 : ℝ) else 1) * (r / 2 ^ 149)| = r / 2 ^ 149 := by
    cases neg <;> simp <;> positivity
  have hpos : 0 < r / 2 ^ 149 := by positivity
  unfold QuantumOf
  rw [habs]
  have hz : ∀ m : ℕ, (2 : ℝ) ^ m / 2 ^ 149 = (2 : ℝ) ^ ((m : ℤ) - 149) := by
    intro m; rw [zpow_sub₀ (by norm_num), zpow_natCast]; norm_num
  have hlt : Int.log 2 (r / 2 ^ 149) < (24 + k : ℕ) - 149 := by
    rw [← Int.lt_zpow_iff_log_lt (by norm_num) hpos]
    have := div_lt_div_of_pos_right hhi (by positivity : (0 : ℝ) < 2 ^ 149)
    rw [hz] at this; exact_mod_cast this
  have hmax : max (Int.log 2 (r / 2 ^ 149)) (-126) - 23 = (k : ℤ) - 149 := by
    rcases hlo with rfl | hlo
    · push_cast at hlt ⊢; omega
    · have hge : ((23 + k : ℕ) : ℤ) - 149 ≤ Int.log 2 (r / 2 ^ 149) := by
        rw [← Int.zpow_le_iff_le_log (by norm_num) hpos]
        have := div_le_div_of_nonneg_right hlo (by positivity : (0 : ℝ) ≤ 2 ^ 149)
        rw [hz] at this; exact_mod_cast this
      push_cast at hlt hge ⊢; omega
  rw [hz, hmax]

/-- The word of n quanta of 2^k units encodes them, up to the infinity (R14). -/
theorem encodes_quanta (neg : Bool) {k n : Nat} (hk : k = 0 ∨ 2 ^ 23 ≤ n) (hn : n ≤ 2 ^ 24) :
    Encodes (BitVec.ofNat 32 (min (k * 2 ^ 23 + n) 0x7F800000 + if neg then 2 ^ 31 else 0)) neg n
      ((2 : ℝ) ^ k / 2 ^ 149) := by
  have hval : ((n * 2 ^ k : ℕ) : ℝ) / 2 ^ 149 = n * ((2 : ℝ) ^ k / 2 ^ 149) := by push_cast; ring
  have hover : ((2 : ℝ) ^ 128 ≤ n * ((2 : ℝ) ^ k / 2 ^ 149)) ↔ 0x7F800000 ≤ k * 2 ^ 23 + n := by
    rw [← hval, le_div_iff₀ (by positivity), ← pow_add]
    have : ((2 : ℝ) ^ (128 + 149) ≤ ((n * 2 ^ k : ℕ) : ℝ)) ↔ 2 ^ 277 ≤ n * 2 ^ k := by
      rw [show (128 + 149 : ℕ) = 277 from rfl]; exact_mod_cast Iff.rfl
    rw [this]
    constructor
    · intro h
      by_contra hc
      push Not at hc
      have hk' : k ≤ 253 := by
        rcases hk with rfl | hk <;> omega
      rcases Nat.lt_or_ge k 253 with h1 | h1
      · have h2 : n * 2 ^ k ≤ 2 ^ 24 * 2 ^ 252 :=
          Nat.mul_le_mul hn (Nat.pow_le_pow_right (by norm_num) (by omega))
        have : (2 : ℕ) ^ 24 * 2 ^ 252 < 2 ^ 277 := by decide +kernel
        omega
      · obtain rfl : k = 253 := by omega
        have h3 : n * 2 ^ 253 < 2 ^ 24 * 2 ^ 253 := Nat.mul_lt_mul_of_pos_right (by omega) (by positivity)
        have : (2 : ℕ) ^ 24 * 2 ^ 253 = 2 ^ 277 := by decide +kernel
        omega
    · intro h
      rcases Nat.lt_or_ge k 254 with h1 | h1
      · have h253 : k = 253 := by omega
        have h24 : n = 2 ^ 24 := by omega
        rw [h253, h24, ← pow_add]
      · calc (2 : ℕ) ^ 277 = 2 ^ 23 * 2 ^ 254 := by rw [← pow_add]
          _ ≤ n * 2 ^ k := Nat.mul_le_mul (by omega) (Nat.pow_le_pow_right (by norm_num) h1)
  refine ⟨fun h => ?_, fun h h0 => ?_, fun h h0 => ?_⟩
  · rw [Nat.min_eq_right (hover.1 h)]; cases neg <;> rfl
  · subst h0
    have : k = 0 := by omega
    subst this; cases neg <;> rfl
  · have hlt : k * 2 ^ 23 + n < 0x7F800000 := by
      by_contra hc; exact absurd (hover.2 (by omega)) (not_le.2 h)
    rw [Nat.min_eq_left hlt.le]
    refine ⟨?_, signBit_signed neg (by omega), ?_⟩
    · rw [isFinite, expField_signed neg (by omega)]; simp; omega
    · rw [mag_signed neg hk hn (by omega), hval]

theorem roundHalfEven_bounds {num den lo hi : Nat} (hd : 0 < den) (hlo : lo * den ≤ num) (hhi : num ≤ hi * den) :
    lo ≤ roundHalfEven num den ∧ roundHalfEven num den ≤ hi := by
  have h1 : lo ≤ num / den := (Nat.le_div_iff_mul_le hd).2 hlo
  have h2 : num / den ≤ hi := Nat.div_le_of_le_mul (by rw [Nat.mul_comm]; exact hhi)
  have h3 := Nat.div_add_mod num den
  have h4 : num / den = hi → num % den = 0 := by
    intro h; rw [h, Nat.mul_comm] at h3; omega
  unfold roundHalfEven
  simp only
  split
  · omega
  · split
    · have : num / den ≠ hi := fun h => by have := h4 h; omega
      omega
    · have : num / den ≠ hi := fun h => by have := h4 h; omega
      omega

/-- `rn32` is RN32 (R14), on every positive magnitude num/den units. -/
theorem rn32_isRN32 (neg : Bool) {num den : Nat} (hn : 0 < num) (hd : 0 < den) :
    IsRN32 ((if neg then -1 else 1) * ((num : ℝ) / den / 2 ^ 149)) (rn32 neg num den) := by
  have hd' : (0 : ℝ) < den := by exact_mod_cast hd
  have hn' : (0 : ℝ) < num := by exact_mod_cast hn
  set k := Nat.log2 (num / den) - 23 with hkdef
  have hq : num / den < 2 ^ (24 + k) := by
    rcases Nat.eq_zero_or_pos (num / den) with h0 | h0
    · rw [h0]; positivity
    · rw [← Nat.log2_lt h0.ne']; omega
  have hnum_lt : num < 2 ^ (24 + k) * den := (Nat.div_lt_iff_lt_mul hd).1 hq
  have hlo : k = 0 ∨ 2 ^ (23 + k) * den ≤ num := by
    rcases Nat.eq_zero_or_pos k with h | h
    · exact Or.inl h
    · right
      have h0 : num / den ≠ 0 := by intro h0; rw [h0] at hkdef; simp at hkdef; omega
      rw [← Nat.le_div_iff_mul_le hd]
      calc 2 ^ (23 + k) ≤ 2 ^ Nat.log2 (num / den) := Nat.pow_le_pow_right (by norm_num) (by omega)
        _ ≤ num / den := Nat.log2_self_le h0
  have hden : 0 < den * 2 ^ k := by positivity
  have hbounds := roundHalfEven_bounds (num := num) (lo := if k = 0 then 0 else 2 ^ 23) (hi := 2 ^ 24) hden
    (by
      rcases hlo with h | h
      · simp [h]
      · split
        · simp
        · calc 2 ^ 23 * (den * 2 ^ k) = 2 ^ (23 + k) * den := by ring
            _ ≤ num := h)
    (by
      calc num ≤ 2 ^ (24 + k) * den := hnum_lt.le
        _ = 2 ^ 24 * (den * 2 ^ k) := by ring)
  have hr : (0 : ℝ) < (num : ℝ) / den := by positivity
  refine ⟨neg, roundHalfEven num (den * 2 ^ k), (2 : ℝ) ^ k / 2 ^ 149, ?_, ?_, ?_, ?_⟩
  · have : 0 < (num : ℝ) / den / 2 ^ 149 := by positivity
    cases neg <;> simp [this, this.le]
  · refine quantumOf_units hr (hlo.imp_right fun h => ?_) ?_ neg
    · rw [le_div_iff₀ hd']; exact_mod_cast h
    · rw [div_lt_iff₀ hd']; exact_mod_cast hnum_lt
  · have habs : |(if neg then (-1 : ℝ) else 1) * ((num : ℝ) / den / 2 ^ 149)| / ((2 : ℝ) ^ k / 2 ^ 149)
        = (num : ℝ) / ((den * 2 ^ k : ℕ) : ℝ) := by
      have : |(if neg then (-1 : ℝ) else 1) * ((num : ℝ) / den / 2 ^ 149)| = (num : ℝ) / den / 2 ^ 149 := by
        cases neg <;> simp <;> positivity
      rw [this]; push_cast; field_simp
    rw [habs]; exact roundHalfEven_spec num hden
  · exact encodes_quanta neg (hk := by
      rcases Nat.eq_zero_or_pos k with h | h
      · exact Or.inl h
      · right; have := hbounds.1; rw [if_neg h.ne'] at this; exact this) (hn := hbounds.2)

end Sys2Proof.Laws
end

