-- ==== Sys2Proof/Laws/Gains.lean ====
section
/-! SUPPORT. The gain comparisons are exact: `cosCompare` is the order of the real cosine and a dyadic number, and
`nearestWord` of such comparisons is RN32. -/

namespace Sys2Proof.Laws

open Sys2Proof.Machine

/-- `o` is how x compares with y. -/
def Compares (o : Ordering) (x y : ℝ) : Prop :=
  match o with
  | .lt => x < y
  | .eq => x = y
  | .gt => y < x

theorem compares_swap (o : Ordering) (x y : ℝ) : Compares o.swap x y ↔ Compares o (-x) (-y) := by
  cases o <;> simp [Compares, Ordering.swap]

theorem compares_compare (x y : ℕ) : Compares (compare x y) x y := by
  rcases lt_trichotomy x y with h | h | h
  · rw [compare_lt_iff_lt.2 h]; show (x : ℝ) < y; exact_mod_cast h
  · rw [compare_eq_iff_eq.2 h]; show (x : ℝ) = y; exact_mod_cast h
  · rw [compare_gt_iff_gt.2 h]; show (y : ℝ) < x; exact_mod_cast h

/-- Doubling keeps the order of two non-negative numbers: x against y as 2x² − 1 against 2y² − 1. -/
theorem compares_double (o : Ordering) {x y : ℝ} (hx : 0 ≤ x) (hy : 0 ≤ y) :
    Compares o (2 * x ^ 2 - 1) (2 * y ^ 2 - 1) ↔ Compares o x y := by
  have hlt : ∀ {u v : ℝ}, 0 ≤ u → 0 ≤ v → (2 * u ^ 2 - 1 < 2 * v ^ 2 - 1 ↔ u < v) := by
    intro u v hu hv
    rw [sub_lt_sub_iff_right, mul_lt_mul_iff_right₀ (by norm_num), pow_lt_pow_iff_left₀ hu hv (by norm_num)]
  cases o
  · exact hlt hx hy
  · simp only [Compares]
    rw [sub_left_inj, mul_right_inj' (by norm_num), pow_left_inj₀ hx hy (by norm_num)]
  · exact hlt hy hx

/-- cos(π·a/2^(n+1)). -/
noncomputable def cosAt (n a : ℕ) : ℝ := Real.cos (Real.pi * a / 2 ^ (n + 1))

theorem cosAt_zero (n : ℕ) : cosAt n 0 = 1 := by simp [cosAt]

theorem cosAt_half (n : ℕ) : cosAt n (2 ^ n) = 0 := by
  have : Real.pi * ((2 ^ n : ℕ) : ℝ) / 2 ^ (n + 1) = Real.pi / 2 := by
    push_cast; rw [pow_succ]; field_simp
  rw [cosAt, this, Real.cos_pi_div_two]

theorem cosAt_nonneg {n a : ℕ} (h : a ≤ 2 ^ n) : 0 ≤ cosAt n a := by
  have hpi := Real.pi_pos
  have h' : (a : ℝ) ≤ 2 ^ n := by exact_mod_cast h
  apply Real.cos_nonneg_of_mem_Icc
  constructor
  · have : 0 ≤ Real.pi * a / 2 ^ (n + 1) := by positivity
    linarith
  · rw [div_le_iff₀ (by positivity), pow_succ]; nlinarith

theorem cosAt_double_low (n a : ℕ) : cosAt n a = 2 * cosAt (n + 1) a ^ 2 - 1 := by
  rw [cosAt, cosAt, ← Real.cos_two_mul]
  congr 1; rw [pow_succ 2 (n + 1)]; field_simp

theorem cosAt_double_high {n a : ℕ} (h : a ≤ 2 ^ (n + 1)) :
    cosAt n (2 ^ (n + 1) - a) = -(2 * cosAt (n + 1) a ^ 2 - 1) := by
  rw [← cosAt_double_low, cosAt, cosAt, ← Real.cos_pi_sub]
  congr 1; rw [Nat.cast_sub h]; push_cast; field_simp

theorem cosAt_pos {n a : ℕ} (h : a < 2 ^ n) : 0 < cosAt n a := by
  have hpi := Real.pi_pos
  have h' : (a : ℝ) < 2 ^ n := by exact_mod_cast h
  apply Real.cos_pos_of_mem_Ioo
  constructor
  · have : 0 ≤ Real.pi * a / 2 ^ (n + 1) := by positivity
    linarith
  · rw [div_lt_iff₀ (by positivity), pow_succ]; nlinarith

theorem cosAt_lt_one {n a : ℕ} (h0 : 0 < a) (h : a ≤ 2 ^ n) : cosAt n a < 1 := by
  have hpi := Real.pi_pos
  have h' : (a : ℝ) ≤ 2 ^ n := by exact_mod_cast h
  have h0' : (0 : ℝ) < a := by exact_mod_cast h0
  have := Real.cos_lt_cos_of_nonneg_of_le_pi (x := 0) (y := Real.pi * a / 2 ^ (n + 1)) le_rfl
    (by rw [div_le_iff₀ (by positivity), pow_succ]; nlinarith) (by positivity)
  rwa [Real.cos_zero] at this

/-- The exact comparison is the order of the cosine and num/2^j. -/
theorem cosCompareExact_spec : ∀ (n a num j : ℕ), a ≤ 2 ^ n →
    Compares (cosCompareExact n a num j) (cosAt n a) ((num : ℝ) / 2 ^ j)
  | 0, a, num, j, h => by
    have hp : (0 : ℝ) < 2 ^ j := by positivity
    have scale : ∀ (o : Ordering) (x : ℝ), Compares o (x * 2 ^ j) num → Compares o x ((num : ℝ) / 2 ^ j) := by
      intro o x hx
      cases o <;> simp only [Compares] at *
      · rwa [lt_div_iff₀ hp]
      · rw [eq_div_iff hp.ne', hx]
      · rwa [div_lt_iff₀ hp]
    rw [cosCompareExact]
    apply scale
    rcases (by omega : a = 0 ∨ a = 2 ^ 0) with rfl | rfl
    · have := compares_compare (2 ^ j) num
      rw [if_pos rfl, cosAt_zero]; simpa using this
    · rw [if_neg (by norm_num), cosAt_half]
      simpa using compares_compare 0 num
  | n + 1, a, num, j, h => by
    have hc := cosAt_nonneg h
    have hr : (0 : ℝ) ≤ (num : ℝ) / 2 ^ j := by positivity
    have key : 2 * ((num : ℝ) / 2 ^ j) ^ 2 - 1 = (2 * num * num - 2 ^ (2 * j)) / 2 ^ (2 * j) := by
      rw [two_mul j, pow_add]; field_simp
    rw [cosCompareExact]
    split
    · rename_i ha
      have hlow := cosAt_double_low n a
      split
      · rename_i hlt
        rw [← compares_double _ hc hr, ← hlow, key]
        have h1 : (2 * (num : ℝ) * num) < 2 ^ (2 * j) := by exact_mod_cast hlt
        have : (2 * (num : ℝ) * num - 2 ^ (2 * j)) / 2 ^ (2 * j) < 0 :=
          div_neg_of_neg_of_pos (by linarith) (by positivity)
        exact lt_of_lt_of_le this (cosAt_nonneg ha)
      · rename_i hge
        rw [← compares_double _ hc hr, ← hlow, key]
        have := cosCompareExact_spec n a (2 * num * num - 2 ^ (2 * j)) (2 * j) ha
        rw [Nat.cast_sub (by omega)] at this
        push_cast at this; exact this
    · rename_i ha
      have hhigh := cosAt_double_high h
      have hle : 2 ^ (n + 1) - a ≤ 2 ^ n := by rw [pow_succ]; omega
      split
      · rename_i hge
        rw [← compares_double _ hc hr, key]
        have h1 : ((2 : ℝ) ^ (2 * j)) ≤ 2 * (num : ℝ) * num := by exact_mod_cast hge
        have h2 : 0 < cosAt n (2 ^ (n + 1) - a) := cosAt_pos (by rw [pow_succ]; omega)
        have : 0 ≤ (2 * (num : ℝ) * num - 2 ^ (2 * j)) / 2 ^ (2 * j) :=
          div_nonneg (by linarith) (by positivity)
        simp only [Compares]; linarith
      · rename_i hlt
        rw [← compares_double _ hc hr, compares_swap, ← hhigh, key, ← neg_div, neg_sub]
        have := cosCompareExact_spec n (2 ^ (n + 1) - a) (2 ^ (2 * j) - 2 * num * num) (2 * j) hle
        rw [Nat.cast_sub (by omega)] at this
        push_cast at this; exact this

/-- Outward rounding: the interval of 2r² − 1 around that of r, in units of 2^−256. -/
theorem interval_double {lo hi : ℕ} {r : ℝ} (hlo : (lo : ℝ) ≤ r * 2 ^ gainBits) (hhi : r * 2 ^ gainBits ≤ hi) :
    ((2 * lo * lo / 2 ^ gainBits : ℕ) : ℝ) ≤ 2 * r ^ 2 * 2 ^ gainBits ∧
      2 * r ^ 2 * 2 ^ gainBits ≤ ((2 * hi * hi / 2 ^ gainBits + 1 : ℕ) : ℝ) := by
  have hp : (0 : ℝ) < 2 ^ gainBits := by positivity
  have hr : 0 ≤ r * 2 ^ gainBits := le_trans (by positivity) hlo
  have hsq : 2 * r ^ 2 * 2 ^ gainBits = 2 * (r * 2 ^ gainBits) ^ 2 / 2 ^ gainBits := by field_simp
  constructor
  · refine le_trans Nat.cast_div_le ?_
    rw [hsq]; push_cast
    refine div_le_div_of_nonneg_right ?_ hp.le
    nlinarith [pow_le_pow_left₀ (by positivity : (0 : ℝ) ≤ lo) hlo 2]
  · have h1 : ((2 * hi * hi : ℕ) : ℝ) / ((2 ^ gainBits : ℕ) : ℝ) < ((2 * hi * hi / 2 ^ gainBits + 1 : ℕ) : ℝ) := by
      rw [div_lt_iff₀ (by exact_mod_cast hp)]
      exact_mod_cast Nat.lt_mul_of_div_lt (Nat.lt_succ_self _) (by positivity)
    refine le_trans ?_ h1.le
    rw [hsq]; push_cast
    refine div_le_div_of_nonneg_right ?_ hp.le
    nlinarith [pow_le_pow_left₀ hr hhi 2]

/-- What the interval comparison answers is the order of the cosine and every r of the interval. -/
theorem cosCompareFast_spec : ∀ (n a lo hi : ℕ) (o : Ordering), a ≤ 2 ^ n → cosCompareFast n a lo hi = some o →
    ∀ r : ℝ, (lo : ℝ) ≤ r * 2 ^ gainBits → r * 2 ^ gainBits ≤ hi → Compares o (cosAt n a) r
  | 0, _, _, _, _, _, h, _, _, _ => by simp [cosCompareFast] at h
  | n + 1, a, lo, hi, o, ha, h, r, hlo, hhi => by
    have hp : (0 : ℝ) < 2 ^ gainBits := by positivity
    have hr : 0 ≤ r := by
      have : 0 ≤ r * 2 ^ gainBits := le_trans (by positivity) hlo
      exact nonneg_of_mul_nonneg_left this hp
    have below : ∀ {m : ℕ}, hi < m → r * 2 ^ gainBits < m := fun hm =>
      lt_of_le_of_lt hhi (by exact_mod_cast hm)
    have above : ∀ {m : ℕ}, m < lo → (m : ℝ) < r * 2 ^ gainBits := fun hm =>
      lt_of_lt_of_le (by exact_mod_cast hm) hlo
    rw [cosCompareFast] at h
    split at h
    · rename_i h0
      subst h0
      rw [cosAt_zero]
      split at h
      · rename_i hc
        obtain rfl := Option.some.inj h
        have := below hc; push_cast at this
        show r < 1
        by_contra hcon; push Not at hcon
        nlinarith
      · split at h
        · rename_i hc
          obtain rfl := Option.some.inj h
          have := above hc; push_cast at this
          show 1 < r
          by_contra hcon; push Not at hcon
          nlinarith
        · split at h
          · rename_i h1 h2 h3
            obtain rfl := Option.some.inj h
            have h4 : lo = 2 ^ gainBits := by omega
            have h5 : hi = 2 ^ gainBits := by omega
            rw [h4] at hlo; rw [h5] at hhi; push_cast at hlo hhi
            show 1 = r
            have : r * 2 ^ gainBits = 1 * 2 ^ gainBits := by linarith
            exact (mul_right_cancel₀ hp.ne' this).symm
          · exact absurd h (by simp)
    · split at h
      · rename_i h0 hhalf
        rw [hhalf, cosAt_half]
        split at h
        · rename_i hc
          obtain rfl := Option.some.inj h
          have : (0 : ℝ) < r * 2 ^ gainBits := lt_of_lt_of_le (by exact_mod_cast hc) hlo
          show 0 < r
          exact pos_of_mul_pos_left this hp.le
        · split at h
          · rename_i hc
            obtain rfl := Option.some.inj h
            rw [hc] at hhi; push_cast at hhi
            show 0 = r
            nlinarith
          · exact absurd h (by simp)
      · split at h
        · rename_i h0 hhalf hone
          obtain rfl := Option.some.inj h
          have h1 := cosAt_lt_one (by omega) ha
          have h2 : ((2 ^ gainBits : ℕ) : ℝ) ≤ r * 2 ^ gainBits := le_trans (by exact_mod_cast hone) hlo
          push_cast at h2
          show cosAt (n + 1) a < r
          nlinarith
        · rename_i h0 hhalf hone
          obtain ⟨hl, hh⟩ := interval_double hlo hhi
          set l := 2 * lo * lo / 2 ^ gainBits
          set u := 2 * hi * hi / 2 ^ gainBits + 1
          have hc := cosAt_nonneg ha
          simp only at h
          split at h
          · rename_i hlow
            have hdbl := cosAt_double_low n a
            split at h
            · rename_i hu
              obtain rfl := Option.some.inj h
              rw [← compares_double _ hc hr, ← hdbl]
              have h3 : (u : ℝ) < 2 ^ gainBits := by exact_mod_cast hu
              have h4 := cosAt_nonneg hlow
              show 2 * r ^ 2 - 1 < cosAt n a
              nlinarith
            · split at h
              · exact absurd h (by simp)
              · rename_i hu hl1
                rw [← compares_double _ hc hr, ← hdbl]
                refine cosCompareFast_spec n a _ _ o hlow h _ ?_ ?_
                · rw [Nat.cast_sub (by omega)]; push_cast; linarith
                · rw [Nat.cast_sub (by omega)]; push_cast; linarith
          · rename_i hlow
            have hdbl := cosAt_double_high ha
            have hle : 2 ^ (n + 1) - a ≤ 2 ^ n := by rw [pow_succ]; omega
            split at h
            · rename_i hl1
              obtain rfl := Option.some.inj h
              rw [← compares_double _ hc hr]
              have h3 : ((2 : ℝ) ^ gainBits) ≤ l := by exact_mod_cast hl1
              have h4 : 0 < cosAt n (2 ^ (n + 1) - a) := cosAt_pos (by rw [pow_succ]; omega)
              show 2 * cosAt (n + 1) a ^ 2 - 1 < 2 * r ^ 2 - 1
              nlinarith
            · split at h
              · exact absurd h (by simp)
              · rename_i hl1 hu
                obtain ⟨o', ho', rfl⟩ := Option.map_eq_some_iff.1 h
                rw [← compares_double _ hc hr, compares_swap, ← hdbl]
                refine cosCompareFast_spec n _ _ _ o' hle ho' _ ?_ ?_
                · rw [Nat.cast_sub (by omega)]; push_cast; linarith
                · rw [Nat.cast_sub (by omega)]; push_cast; linarith

/-- `cosCompare` is the order of cos(π·a/2^151) and num/2^150, for every angle in [0, π/2]. -/
theorem cosCompare_spec {a : ℕ} (ha : a ≤ 2 ^ 150) (num : ℕ) :
    Compares (cosCompare a num) (cosAt 150 a) ((num : ℝ) / 2 ^ 150) := by
  rw [cosCompare]
  split
  · rename_i o h
    have e : ((num : ℝ) / 2 ^ 150) * 2 ^ gainBits = ((num * 2 ^ (gainBits - 150) : ℕ) : ℝ) := by
      rw [show gainBits = 150 + 106 from rfl, show 150 + 106 - 150 = 106 from rfl, pow_add]
      push_cast; field_simp; norm_num
    exact cosCompareFast_spec 150 a _ _ o ha h _ e.ge e.le
  · exact cosCompareExact_spec 150 a num 150 ha

/-- The search keeps x between two words; `floorWord` ends at the two that adjoin. -/
theorem floorWord_spec {cmp : ℕ → Ordering} {x : ℝ} (hcmp : ∀ N, Compares (cmp N) x ((N : ℝ) / 2 ^ 150)) :
    ∀ i w : ℕ, (mag (BitVec.ofNat 32 w) : ℝ) / 2 ^ 149 ≤ x → x < (mag (BitVec.ofNat 32 (w + 2 ^ i)) : ℝ) / 2 ^ 149 →
      (mag (BitVec.ofNat 32 (floorWord cmp i w)) : ℝ) / 2 ^ 149 ≤ x ∧
        x < (mag (BitVec.ofNat 32 (floorWord cmp i w + 1)) : ℝ) / 2 ^ 149 ∧ floorWord cmp i w < w + 2 ^ i
  | 0, w, h1, h2 => by simpa [floorWord] using ⟨h1, h2⟩
  | i + 1, w, h1, h2 => by
    have e : ((2 * mag (BitVec.ofNat 32 (w + 2 ^ i)) : ℕ) : ℝ) / 2 ^ 150
        = (mag (BitVec.ofNat 32 (w + 2 ^ i)) : ℝ) / 2 ^ 149 := by
      rw [pow_succ (2 : ℝ) 149]; push_cast; field_simp
    have h2' : x < (mag (BitVec.ofNat 32 (w + 2 ^ i + 2 ^ i)) : ℝ) / 2 ^ 149 := by
      rwa [show w + 2 ^ i + 2 ^ i = w + 2 ^ (i + 1) by rw [pow_succ]; omega]
    have hc := hcmp (2 * mag (BitVec.ofNat 32 (w + 2 ^ i)))
    rw [e] at hc
    rw [floorWord]
    split
    · rename_i ho; rw [ho] at hc
      obtain ⟨a, b, c⟩ := floorWord_spec hcmp i w h1 hc
      exact ⟨a, b, by rw [pow_succ]; omega⟩
    · rename_i ho; rw [ho] at hc
      obtain ⟨a, b, c⟩ := floorWord_spec hcmp i (w + 2 ^ i) (le_of_eq hc.symm) h2'
      exact ⟨a, b, by rw [pow_succ]; omega⟩
    · rename_i ho; rw [ho] at hc
      obtain ⟨a, b, c⟩ := floorWord_spec hcmp i (w + 2 ^ i) (le_of_lt hc) h2'
      exact ⟨a, b, by rw [pow_succ]; omega⟩

/-- `nearestWord` of the comparisons of an x in (0, 1] is RN32(x) (R14). -/
theorem nearestWord_isRN32 {cmp : ℕ → Ordering} {x : ℝ} (hcmp : ∀ N, Compares (cmp N) x ((N : ℝ) / 2 ^ 150))
    (hx0 : 0 < x) (hx1 : x ≤ 1) : IsRN32 x (nearestWord cmp) := by
  have htop : mag (BitVec.ofNat 32 (0 + 2 ^ 30)) = 2 ^ 150 := by decide +kernel
  obtain ⟨hle, hlt, hw⟩ := floorWord_spec hcmp 30 0 (by
      rw [show mag (BitVec.ofNat 32 0) = 0 by decide +kernel]; simpa using hx0.le)
    (by rw [htop]; push_cast; norm_num; linarith)
  set w := floorWord cmp 30 0 with hwdef
  obtain ⟨k, n, hk, hn, hword, hmag⟩ := mag_eq_quanta (BitVec.ofNat 32 w)
  have hw30 : w < 2 ^ 30 := by simpa using hw
  rw [BitVec.toNat_ofNat, Nat.mod_eq_of_lt (by omega), Nat.mod_eq_of_lt (by omega)] at hword
  have hmag' : mag (BitVec.ofNat 32 (w + 1)) = (n + 1) * 2 ^ k := by
    have := mag_signed false (k := k) (n := n + 1) (by omega) (by omega) (by omega)
    rw [hword]; simpa [Nat.add_assoc] using this
  have hkpos : (0 : ℝ) < 2 ^ k := by positivity
  -- x in units of 2^−149, and in quanta
  set r := x * 2 ^ 149 with hr
  have hx : x = r / 2 ^ 149 := by rw [hr]; field_simp
  have hrpos : 0 < r := by positivity
  rw [hmag, hx, div_le_div_iff_of_pos_right (by positivity)] at hle
  rw [hmag', hx, div_lt_div_iff_of_pos_right (by positivity)] at hlt
  push_cast at hle hlt
  have hquant : QuantumOf x ((2 : ℝ) ^ k / 2 ^ 149) := by
    have := quantumOf_units (k := k) hrpos (hk.imp_right fun h => ?_) ?_ false
    · rw [hx]; simpa using this
    · refine le_trans ?_ hle
      rw [pow_add]; exact mul_le_mul_of_nonneg_right (by exact_mod_cast h) hkpos.le
    · refine lt_of_lt_of_le hlt ?_
      rw [pow_add]; exact mul_le_mul_of_nonneg_right (by exact_mod_cast hn) hkpos.le
  have hscale : |x| / ((2 : ℝ) ^ k / 2 ^ 149) = r / 2 ^ k := by
    rw [abs_of_pos hx0, hx]; field_simp
  have hlo : (n : ℝ) ≤ r / 2 ^ k := by rwa [le_div_iff₀ hkpos]
  have hhi : r / 2 ^ k < n + 1 := by rwa [div_lt_iff₀ hkpos]
  have enc : ∀ m, (k = 0 ∨ 2 ^ 23 ≤ m) → m ≤ 2 ^ 24 → k * 2 ^ 23 + m ≤ 2 ^ 30 →
      Encodes (BitVec.ofNat 32 (k * 2 ^ 23 + m)) false m ((2 : ℝ) ^ k / 2 ^ 149) := by
    intro m h1 h2 h3
    have := encodes_quanta false h1 h2
    rwa [Nat.min_eq_left (by omega), if_neg (by decide), Nat.add_zero] at this
  have hmid : ((mag (BitVec.ofNat 32 w) + mag (BitVec.ofNat 32 (w + 1)) : ℕ) : ℝ) / 2 ^ 150
      = (n + 1 / 2) * 2 ^ k / 2 ^ 149 := by
    rw [hmag, hmag', pow_succ (2 : ℝ) 149]; push_cast; field_simp; ring
  have hc := hcmp (mag (BitVec.ofNat 32 w) + mag (BitVec.ofNat 32 (w + 1)))
  rw [hmid, hx] at hc
  have build : ∀ m, (k = 0 ∨ 2 ^ 23 ≤ m) → m ≤ 2 ^ 24 → k * 2 ^ 23 + m ≤ 2 ^ 30 → NearestEven (r / 2 ^ k) m →
      IsRN32 x (BitVec.ofNat 32 (k * 2 ^ 23 + m)) := fun m h1 h2 h3 h4 =>
    ⟨false, m, _, by simp [hx0.le], hquant, by rwa [hscale], enc m h1 h2 h3⟩
  rw [nearestWord]
  simp only [← hwdef]
  split
  · rename_i ho; rw [ho] at hc
    have h1 : r < (n + 1 / 2) * 2 ^ k := by
      simpa only [Compares, div_lt_div_iff_of_pos_right (by positivity : (0 : ℝ) < 2 ^ 149)] using hc
    rw [hword]
    refine build n hk hn.le (by omega) (Or.inl ?_)
    rw [abs_of_nonneg (by linarith)]
    have := (div_lt_iff₀ hkpos).2 h1
    linarith
  · rename_i ho; rw [ho] at hc
    have h1 : (n + 1 / 2) * 2 ^ k < r := by
      simpa only [Compares, div_lt_div_iff_of_pos_right (by positivity : (0 : ℝ) < 2 ^ 149)] using hc
    rw [hword, Nat.add_assoc]
    refine build (n + 1) (by omega) (by omega) (by omega) (Or.inl ?_)
    have := (lt_div_iff₀ hkpos).2 h1
    push_cast
    rw [abs_of_nonpos (by linarith)]
    linarith
  · rename_i ho; rw [ho] at hc
    have h1 : r / 2 ^ k = n + 1 / 2 := by
      have : r / 2 ^ 149 = (n + 1 / 2) * 2 ^ k / 2 ^ 149 := hc
      rw [div_left_inj' (by positivity)] at this
      rw [this]; field_simp
    have hpar : w % 2 = n % 2 := by omega
    rcases Nat.mod_two_eq_zero_or_one n with h0 | h0
    · rw [hpar, h0, Nat.add_zero, hword]
      refine build n hk hn.le (by omega) (Or.inr ⟨?_, Nat.even_iff.2 h0⟩)
      rw [h1]; norm_num
    · rw [hpar, h0, hword, Nat.add_assoc]
      refine build (n + 1) (by omega) (by omega) (by omega) (Or.inr ⟨?_, Nat.even_iff.2 (by omega)⟩)
      rw [h1]; push_cast; norm_num

end Sys2Proof.Laws
end

