-- ==== Sys2Proof/Laws/State.lean ====
section
/-! SUPPORT. The state updates: what each leaves in every field, by rfl, so that no later proof unfolds a record update. -/

namespace Sys2Proof.Laws

open Sys2Proof.Machine

/-! Ending a command. -/

@[simp] theorem commit_blk (s : State) (r : Block × Word) : (s.commit r).blk = r.1 := rfl
@[simp] theorem commit_resp (s : State) (r : Block × Word) : (s.commit r).resp = r.2 := rfl
@[simp] theorem commit_control (s : State) (r : Block × Word) : (s.commit r).control = s.control := rfl
@[simp] theorem commit_audio (s : State) (r : Block × Word) : (s.commit r).audio = s.audio := rfl
@[simp] theorem commit_schedule (s : State) (r : Block × Word) : (s.commit r).schedule = s.schedule := rfl
@[simp] theorem ignoreCommand_blk (s : State) : s.ignoreCommand.blk = s.blk := rfl
@[simp] theorem ignoreCommand_resp (s : State) : s.ignoreCommand.resp = 0#32 := rfl
@[simp] theorem ignoreCommand_control (s : State) : s.ignoreCommand.control = s.control := rfl
@[simp] theorem ignoreCommand_audio (s : State) : s.ignoreCommand.audio = s.audio := rfl
@[simp] theorem ignoreCommand_schedule (s : State) : s.ignoreCommand.schedule = s.schedule := rfl
@[simp] theorem commitIf_true (s : State) (r : Block × Word) : s.commitIf true r = s.commit r := rfl
@[simp] theorem commitIf_false (s : State) (r : Block × Word) : s.commitIf false r = s.ignoreCommand := rfl

/-! The channels. -/

@[simp] theorem chan_left (b : Block) : b.chan .left = b.left := rfl
@[simp] theorem chan_right (b : Block) : b.chan .right = b.right := rfl
@[simp] theorem setChan_p (b : Block) (c : Channel) (v : ChannelState) : (b.setChan c v).p = b.p := by cases c <;> rfl
@[simp] theorem setChan_cfg (b : Block) (c : Channel) (v : ChannelState) : (b.setChan c v).cfg = b.cfg := by
  cases c <;> rfl
@[simp] theorem setChan_wg (b : Block) (c : Channel) (v : ChannelState) : (b.setChan c v).wg = b.wg := by
  cases c <;> rfl
@[simp] theorem setChan_dg (b : Block) (c : Channel) (v : ChannelState) : (b.setChan c v).dg = b.dg := by
  cases c <;> rfl
@[simp] theorem setChan_qcBd (b : Block) (c : Channel) (v : ChannelState) : (b.setChan c v).qcBd = b.qcBd := by
  cases c <;> rfl
@[simp] theorem setChan_qcQ (b : Block) (c : Channel) (v : ChannelState) : (b.setChan c v).qcQ = b.qcQ := by
  cases c <;> rfl
@[simp] theorem setChan_chan_self (b : Block) (c : Channel) (v : ChannelState) : (b.setChan c v).chan c = v := by
  cases c <;> rfl
theorem setChan_chan_other (b : Block) {c d : Channel} (v : ChannelState) (h : d ≠ c) :
    (b.setChan c v).chan d = b.chan d := by cases c <;> cases d <;> first | rfl | exact absurd rfl h
@[simp] theorem setChan_setChan (b : Block) (c : Channel) (v w : ChannelState) :
    (b.setChan c v).setChan c w = b.setChan c w := by cases c <;> rfl
@[simp] theorem hold_ph (v : ChannelState) (y : Word) : (v.hold y).ph = v.ph := by
  unfold ChannelState.hold; split <;> rfl
@[simp] theorem advance_held (v : ChannelState) (n : Nat) : (v.advance n).held = v.held := rfl

/-! The cache. -/

@[simp] theorem fillCache_p (b : Block) (n : Nat) : (b.fillCache n).p = b.p := by unfold Block.fillCache; split <;> rfl
@[simp] theorem fillCache_cfg (b : Block) (n : Nat) : (b.fillCache n).cfg = b.cfg := by
  unfold Block.fillCache; split <;> rfl
@[simp] theorem fillCache_wg (b : Block) (n : Nat) : (b.fillCache n).wg = b.wg := by
  unfold Block.fillCache; split <;> rfl
@[simp] theorem fillCache_dg (b : Block) (n : Nat) : (b.fillCache n).dg = b.dg := by
  unfold Block.fillCache; split <;> rfl
@[simp] theorem fillCache_chan (b : Block) (n : Nat) (c : Channel) : (b.fillCache n).chan c = b.chan c := by
  unfold Block.fillCache; split <;> cases c <;> rfl
@[simp] theorem fillCache_qcBd (b : Block) (n : Nat) : (b.fillCache n).qcBd = n := by
  unfold Block.fillCache; split
  · rfl
  · rename_i h; push Not at h; exact h

/-! The gains and the phases. -/

@[simp] theorem writeGains_p (b : Block) : b.writeGains.p = b.p := rfl
@[simp] theorem writeGains_cfg (b : Block) : b.writeGains.cfg = b.cfg := rfl
@[simp] theorem writeGains_wg (b : Block) : b.writeGains.wg = wetGain b.cfg.mix := rfl
@[simp] theorem writeGains_dg (b : Block) : b.writeGains.dg = dryGain b.cfg.mix := rfl
@[simp] theorem writeGains_chan (b : Block) (c : Channel) : b.writeGains.chan c = b.chan c := by cases c <;> rfl
@[simp] theorem clearPhases_p (b : Block) : b.clearPhases.p = b.p := rfl
@[simp] theorem clearPhases_cfg (b : Block) : b.clearPhases.cfg = b.cfg := rfl
@[simp] theorem clearPhases_wg (b : Block) : b.clearPhases.wg = b.wg := rfl
@[simp] theorem clearPhases_dg (b : Block) : b.clearPhases.dg = b.dg := rfl
@[simp] theorem clearPhases_ph (b : Block) (c : Channel) : (b.clearPhases.chan c).ph = 0#4 := by cases c <;> rfl
@[simp] theorem clearPhases_held (b : Block) (c : Channel) : (b.clearPhases.chan c).held = (b.chan c).held := by
  cases c <;> rfl

/-! The ports' streams. -/

@[simp] theorem setStream_blk (s : State) (p : Port) (q : List Request) : (s.setStream p q).blk = s.blk := by
  cases p <;> rfl
@[simp] theorem setStream_resp (s : State) (p : Port) (q : List Request) : (s.setStream p q).resp = s.resp := by
  cases p <;> rfl
@[simp] theorem setStream_schedule (s : State) (p : Port) (q : List Request) :
    (s.setStream p q).schedule = s.schedule := by cases p <;> rfl
@[simp] theorem setStream_stream (s : State) (p : Port) (q : List Request) : (s.setStream p q).stream p = q := by
  cases p <;> rfl
theorem setStream_stream_other (s : State) {p p' : Port} (q : List Request) (h : p' ≠ p) :
    (s.setStream p q).stream p' = s.stream p' := by cases p <;> cases p' <;> first | rfl | exact absurd rfl h

/-! One SMP as a whole: the fields of the block after `smp`. -/

@[simp] theorem crush_p (b : Block) (x : Word) : (b.crush x).1.p = b.p := by
  unfold Block.crush; split <;> simp [Block.quantize]
@[simp] theorem crush_cfg (b : Block) (x : Word) : (b.crush x).1.cfg = b.cfg := by
  unfold Block.crush; split <;> simp [Block.quantize]
@[simp] theorem crush_wg (b : Block) (x : Word) : (b.crush x).1.wg = b.wg := by
  unfold Block.crush; split <;> simp [Block.quantize]
@[simp] theorem crush_dg (b : Block) (x : Word) : (b.crush x).1.dg = b.dg := by
  unfold Block.crush; split <;> simp [Block.quantize]
@[simp] theorem crush_chan (b : Block) (x : Word) (c : Channel) : (b.crush x).1.chan c = b.chan c := by
  unfold Block.crush; split <;> simp [Block.quantize]
@[simp] theorem smp_p (b : Block) (c : Channel) (x : Word) : (b.smp c x).1.p = b.p := by
  simp [Block.smp, Block.shape, Block.decimate, Block.advancePhase]
@[simp] theorem smp_cfg (b : Block) (c : Channel) (x : Word) : (b.smp c x).1.cfg = b.cfg := by
  simp [Block.smp, Block.shape, Block.decimate, Block.advancePhase]
@[simp] theorem smp_wg (b : Block) (c : Channel) (x : Word) : (b.smp c x).1.wg = b.wg := by
  simp [Block.smp, Block.shape, Block.decimate, Block.advancePhase]
@[simp] theorem smp_dg (b : Block) (c : Channel) (x : Word) : (b.smp c x).1.dg = b.dg := by
  simp [Block.smp, Block.shape, Block.decimate, Block.advancePhase]
@[simp] theorem smp_qcBd (b : Block) (c : Channel) (x : Word) : (b.smp c x).1.qcBd = (b.crush x).1.qcBd := by
  simp [Block.smp, Block.shape, Block.decimate, Block.advancePhase]
@[simp] theorem smp_qcQ (b : Block) (c : Channel) (x : Word) : (b.smp c x).1.qcQ = (b.crush x).1.qcQ := by
  simp [Block.smp, Block.shape, Block.decimate, Block.advancePhase]
theorem smp_chan_self (b : Block) (c : Channel) (x : Word) :
    (b.smp c x).1.chan c = ((b.chan c).hold (b.shape x).2).advance b.cfg.dsFactor.toNat := by
  simp [Block.smp, Block.shape, Block.decimate, Block.advancePhase]
theorem smp_chan_other (b : Block) {c d : Channel} (x : Word) (h : d ≠ c) : (b.smp c x).1.chan d = b.chan d := by
  simp [Block.smp, Block.shape, Block.decimate, Block.advancePhase, setChan_chan_other _ _ h]
theorem smp_resp (b : Block) (c : Channel) (x : Word) :
    (b.smp c x).2 = mixWith b.wg b.dg x ((b.chan c).hold (b.shape x).2).held := by
  simp [Block.smp, Block.shape, Block.decimate, Block.advancePhase, Block.mixOut]

end Sys2Proof.Laws
end

