-- ==== Sys2Proof/Laws/Ops.lean ====
section
/-! SUPPORT. What the shared operations can do: how the next command arrives, how a command ends, what a step is. -/

namespace Sys2Proof.Laws

open Sys2Proof.Machine

/-- Everything a fetch can do: nothing has been scheduled; the scheduled port brings nothing; or its first request
arrives, and only that request and that schedule entry are gone. S and RESP stay. -/
theorem fetch_cases {s s' : State} {t : Option Transaction} (h : s.fetch = (t, s')) :
    (s.schedule = [] ∧ t = none ∧ s' = s) ∨
    (∃ port rest, s.schedule = port :: rest ∧ s.stream port = [] ∧ t = none ∧ s' = { s with schedule := rest }) ∨
    (∃ port rest r q, s.schedule = port :: rest ∧ s.stream port = r :: q ∧ t = some ⟨port, r.cmd, r.data⟩ ∧
      s' = { s.setStream port q with schedule := rest }) := by
  unfold State.fetch at h
  split at h
  · rename_i hs
    obtain ⟨rfl, rfl⟩ := Prod.mk.inj h
    exact Or.inl ⟨hs, rfl, rfl⟩
  · rename_i port rest hs
    split at h
    · rename_i hq
      obtain ⟨rfl, rfl⟩ := Prod.mk.inj h
      exact Or.inr (Or.inl ⟨port, rest, hs, hq, rfl, rfl⟩)
    · rename_i r q hq
      obtain ⟨rfl, rfl⟩ := Prod.mk.inj h
      exact Or.inr (Or.inr ⟨port, rest, r, q, hs, hq, rfl, rfl⟩)

@[simp] theorem fetch_blk (s : State) : s.fetch.2.blk = s.blk := by
  rcases hf : s.fetch with ⟨t, s'⟩
  obtain ⟨_, _, rfl⟩ | ⟨_, _, _, _, _, rfl⟩ | ⟨_, _, _, _, _, _, _, rfl⟩ := fetch_cases hf <;> simp

@[simp] theorem fetch_resp (s : State) : s.fetch.2.resp = s.resp := by
  rcases hf : s.fetch with ⟨t, s'⟩
  obtain ⟨_, _, rfl⟩ | ⟨_, _, _, _, _, rfl⟩ | ⟨_, _, _, _, _, _, _, rfl⟩ := fetch_cases hf <;> simp

/-- Offering a transaction and fetching it gives back the state. -/
theorem fetch_offer (s : State) (t : Transaction) : (s.offer t).fetch = (some t, s) := by
  obtain ⟨port, cmd, data⟩ := t
  cases port <;> rfl

/-- Every meaning at once: a command legal on its port has its effect, another is ignored. -/
theorem exec_eq (i : Instr) (s : State) : exec i s = .next (s.commitIf i.wellFormed (s.blk.effect i)) := by
  cases i <;> rfl

/-- The decoder answers only commands that are legal on their port. -/
theorem decode_wellFormed {t : Transaction} {i : Instr} (h : decode t = .command i) : i.wellFormed = true := by
  unfold decode checkPort at h
  split at h
  · split at h
    · rename_i hw; cases h; exact hw
    · cases h
  · cases h

/-- Everything a step can do: S and RESP as they were, or one transaction's effect and answer. -/
theorem step_cases {s s' : State} (h : step s = .next s') :
    (s.fetch.1 = none ∧ s' = s.fetch.2) ∨
    (∃ t, s.fetch.1 = some t ∧ s' = s.fetch.2.commit (s.blk.perform t)) := by
  unfold step at h
  split at h
  · rename_i x hx
    left; rw [hx]; cases h; exact ⟨rfl, rfl⟩
  · rename_i t x hx
    right
    refine ⟨t, by rw [hx], ?_⟩
    have hb : x.blk = s.blk := by rw [← fetch_blk s, hx]
    rw [hx]
    split at h
    · rename_i i hi
      rw [exec_eq, decode_wellFormed hi, commitIf_true, hb] at h
      cases h
      simp [Block.perform, hi]
    · rename_i why hi
      cases h
      simp [Block.perform, hi, State.ignoreCommand, hb]

end Sys2Proof.Laws
end

