-- ==== Sys2Proof/Laws/PerInstr.lean ====
section
/-! SUPPORT. The statements made per instruction: the CMD word of every command fits its row of the opcode table, and
only a legal port fits the row's ports. -/

namespace Sys2Proof.Laws.FitsRow

/-- The encoded CMD word of `i` matches the mask and pattern of its row, and its port is one of the row's exactly when
`i` is well formed (R82, R86, R89). -/
def Statement (i : Instr) : Prop :=
  cmdOf i &&& (rowOf i).mask = (rowOf i).pattern ∧ ((rowOf i).ports.contains i.port = i.wellFormed)

/-- A property of the 64 parameter ids, checked at each. -/
theorem forall_pid {P : BitVec 6 → Prop} (h : ∀ n : Fin 64, P (BitVec.ofFin n)) (pid : BitVec 6) : P pid := h pid.toFin

theorem nop (port : Port) : Statement (.nop port) :=
  ⟨(by decide : 0x00000000#32 &&& nopRow.mask = nopRow.pattern), by cases port <;> rfl⟩

theorem pwr (port : Port) (pid : BitVec 6) (data : Word) : Statement (.pwr port pid data) :=
  ⟨forall_pid (P := fun pid => (0x10000000#32 ||| pid.setWidth 32) &&& pwrRow.mask = pwrRow.pattern) (by decide) pid,
    by cases port <;> rfl⟩

theorem prd (port : Port) (pid : BitVec 6) : Statement (.prd port pid) :=
  ⟨forall_pid (P := fun pid => (0x20000000#32 ||| pid.setWidth 32) &&& prdRow.mask = prdRow.pattern) (by decide) pid,
    by cases port <;> rfl⟩

theorem bstart (port : Port) : Statement (.bstart port) :=
  ⟨(by decide : 0x30000000#32 &&& bstartRow.mask = bstartRow.pattern), by cases port <;> rfl⟩

theorem smp (port : Port) (ch : Channel) (x : Word) : Statement (.smp port ch x) :=
  ⟨(by cases ch <;> decide :
      (0x40000000#32 ||| (ch.bit.setWidth 32 <<< 8)) &&& smpRow.mask = smpRow.pattern), by cases port <;> rfl⟩

end Sys2Proof.Laws.FitsRow
end

