-- ==== Sys2Proof/Tests/Slice0.lean ====
section
/-! SUPPORT. The model's own tests: the smoke test of the well-formedness checks, the decoder on words written out bit by bit,
one step of each command on expected values of 95_test_vectors.md, and a witness for the hypotheses of each statement. -/

namespace Sys2Proof.Tests

open Sys2Proof.Machine

/-! ### Well-formedness: an ill-formed term for each check (R86) -/

theorem test_pwr_on_audio_is_ill_formed : (Instr.pwr .audio 0x01#6 4#32).wellFormed = false := by decide
theorem test_bstart_on_control_is_ill_formed : (Instr.bstart .control).wellFormed = false := by decide
theorem test_smp_on_control_is_ill_formed : (Instr.smp .control .left 0#32).wellFormed = false := by decide

/-! ### Decoding, from the bit patterns of R82 (OPC, RSV_HI, CH, RSV_LO, PID) and the illegal words of V-C -/

theorem test_decode_nop :
    decode ⟨.audio, 0b00000000000000000000000000000000#32, 5#32⟩ = .command (.nop .audio) := by decide
theorem test_decode_pwr_mask31 :
    decode ⟨.control, 0b00010000000000000000000000111111#32, 1#32⟩ = .command (.pwr .control 0x3F#6 1#32) := by decide
theorem test_decode_prd_bit_depth :
    decode ⟨.audio, 0b00100000000000000000000000000010#32, 0#32⟩ = .command (.prd .audio 0x02#6) := by decide
theorem test_decode_bstart :
    decode ⟨.audio, 0b00110000000000000000000000000000#32, 0#32⟩ = .command (.bstart .audio) := by decide
theorem test_decode_smp_right :
    decode ⟨.audio, 0b01000000000000000000000100000000#32, 0xBF800000#32⟩
      = .command (.smp .audio .right 0xBF800000#32) := by decide
theorem test_decode_illegal_words :
    [(⟨.audio, 0x10000000#32, 0#32⟩ : Transaction), ⟨.control, 0x40000000#32, 0#32⟩, ⟨.audio, 0x50000000#32, 0#32⟩,
      ⟨.control, 0x10000101#32, 0#32⟩, ⟨.audio, 0x30000020#32, 0#32⟩, ⟨.audio, 0x40000200#32, 0#32⟩].map decode =
    [.illegal .wrongPort, .illegal .wrongPort, .illegal .reservedOpcode, .illegal .strayChannel, .illegal .strayPid,
      .illegal .reservedBits] := by decide

/-! ### One step of each command -/

/-- A state whose next arrival is `t`, the block being `b`. -/
def arriving (b : Block) (t : Transaction) : State :=
  State.offer { State.reset with blk := b, resp := 0xFFFFFFFF#32 } t

/-- What an outcome leaves: S and RESP. -/
def left : Host.Outcome State Fault Refusal → Option (Block × Word)
  | .next s => some (s.blk, s.resp)
  | _ => none

/-- The RESP of an outcome. -/
def respOf (o : Host.Outcome State Fault Refusal) : Option Word := (left o).map Prod.snd

/-- V-C2. -/
theorem test_nop : left (step (arriving Block.reset ⟨.audio, 0#32, 9#32⟩)) = some (Block.reset, 0#32) := by
  decide +kernel
/-- V-P13: DS_FACTOR written −1 stores 1. -/
theorem test_pwr_signed_clamp :
    ((left (step (arriving Block.reset ⟨.control, 0x10000001#32, 0xFFFFFFFF#32⟩))).map fun r => r.1.p.dsFactor)
      = some 1#32 := by decide +kernel
/-- V-P5: MIX written −Inf stores −1.0. -/
theorem test_pwr_mix_minus_infinity :
    ((left (step (arriving Block.reset ⟨.control, 0x10000000#32, 0xFF800000#32⟩))).map fun r => r.1.p.mix)
      = some 0xBF800000#32 := by decide +kernel
/-- R103's example. -/
theorem test_prd_bit_depth : respOf (step (arriving Block.reset ⟨.audio, 0x20000002#32, 0#32⟩)) = some 0x18#32 := by
  decide +kernel
/-- V-B2: MASKVEC and the gains. -/
theorem test_bstart_half_mix :
    ((left (step (arriving
        { Block.reset with p := { Params.reset with mix := 0#32, mask := (Params.reset.mask.set 0 1#32).set 31 1#32 } }
        ⟨.audio, 0x30000000#32, 0#32⟩))).map fun r => (r.1.cfg.maskVec, r.1.wg, r.1.dg))
      = some (0x80000001#32, 0x3F3504F3#32, 0x3F3504F3#32) := by decide +kernel
/-- V-B5: the phases. -/
theorem test_bstart_clears_phases :
    ((left (step (arriving { Block.reset with left := ⟨7#32, 3#4⟩, right := ⟨9#32, 1#4⟩ }
        ⟨.audio, 0x30000000#32, 0#32⟩))).map fun r => (r.1.left, r.1.right))
      = some (⟨7#32, 0#4⟩, ⟨9#32, 0#4⟩) := by decide +kernel
/-- V-SMP2: Quantize at b = 24 is not the identity. -/
theorem test_smp_quantize : respOf (step (arriving Block.reset ⟨.audio, 0x40000000#32, 0x3E800000#32⟩))
    = some 0x3E7FFFFE#32 := by decide +kernel
/-- P3, step 6: bits 0 and 31 cleared, mixed at half. -/
theorem test_smp_masked_half_mix :
    respOf (step (arriving
      { Block.reset with cfg := ⟨0#32, 1#32, 24#32, 0#32, 1#32, 0x80000001#32⟩, wg := 0x3F3504F3#32, dg := 0x3F3504F3#32 }
      ⟨.audio, 0x40000100#32, 0x3F400003#32⟩)) = some 0x3F87C3B8#32 := by decide +kernel

/-! ### The reset gains are those of the reset mix (R220: Gains(CFG.MIX)), and a line of text (R91) -/

theorem test_reset_gains :
    (Block.reset.wg, Block.reset.dg) = (wetGain Snapshot.reset.mix, dryGain Snapshot.reset.mix) := by decide +kernel
/-- `A: smp 1, -2.0f ; P2` (95_test_vectors.md P2, step 10). -/
theorem test_assembler_line :
    (readLine ['A', ':', ' ', 's', 'm', 'p', ' ', '1', ',', ' ', '-', '2', '.', '0', 'f', ' ', ';', 'P']).bind Line.expand
      = some [⟨.audio, 0x40000100#32, 0xC0000000#32⟩] := by decide +kernel

/-! ### Witnesses: the hypotheses of each statement are met together -/

/-- A block inside a block of commands: N = 3, b = 8, masks off, mix 0, one sample of channel 0 taken. -/
def midBlock : Block where
  p := { Params.reset with mix := 0#32, dsFactor := 3#32, bitDepth := 8#32, masksEnabled := 0#32 }
  cfg := ⟨0#32, 3#32, 8#32, 0#32, 0#32, 0#32⟩
  wg := 0x3F3504F3#32
  dg := 0x3F3504F3#32
  left := ⟨0x3F000000#32, 1#4⟩
  right := ⟨0#32, 0#4⟩
  qcBd := 8
  qcQ := 0x3B808081#32

/-- A state in that block, with one request on each port. -/
def midState (port : Port) (c a : Request) : State :=
  { blk := midBlock, resp := 0#32, control := [c], audio := [a], schedule := [port] }

theorem midBlock_inv : midBlock.Inv := by decide +kernel

theorem witness_DecodeOfEncodeIsTheCommand :
    (Instr.nop .control).wellFormed = true ∧ (Instr.pwr .control 0x3F#6 0xFFFFFFFF#32).wellFormed = true ∧
    (Instr.prd .audio 0x1F#6).wellFormed = true ∧ (Instr.bstart .audio).wellFormed = true ∧
    (Instr.smp .audio .right 0x7FC00000#32).wellFormed = true := by decide

theorem witness_DecodedCommandCarriesTheTransaction :
    decode ⟨.control, 0x1000003F#32, 3#32⟩ = .command (.pwr .control 0x3F#6 3#32) ∧
    decode ⟨.audio, 0x40000100#32, 3#32⟩ = .command (.smp .audio .right 3#32) := by decide

theorem witness_DecodeFollowsTheOpcodeTable :
    decode ⟨.audio, 0x2000003F#32, 0#32⟩ = .command (.prd .audio 0x3F#6) := by decide

theorem witness_OpcodeRowsAreDisjoint :
    pwrRow ∈ opcodeTable ∧ pwrRow ∈ opcodeTable ∧ 0x1000003F#32 &&& pwrRow.mask = pwrRow.pattern := by decide

theorem witness_StepRunsTheArrivingCommand :
    let s := midState .audio ⟨0x10000001#32, 4#32⟩ ⟨0x40000000#32, 0x3F800000#32⟩
    s.schedule = [.audio] ∧ s.stream .audio = [⟨0x40000000#32, 0x3F800000#32⟩] ∧
      decode ⟨.audio, 0x40000000#32, 0x3F800000#32⟩ = .command (.smp .audio .left 0x3F800000#32) := by decide

theorem witness_IllegalCommandIsIgnored :
    let s := midState .control ⟨0x30000000#32, 0#32⟩ ⟨0#32, 0#32⟩
    s.schedule = [.control] ∧ s.stream .control = [⟨0x30000000#32, 0#32⟩] ∧
      decode ⟨.control, 0x30000000#32, 0#32⟩ = .illegal .wrongPort := by decide

theorem witness_IdleStepHoldsTheState :
    State.reset.schedule = [] ∧
    (let s : State := { State.reset with schedule := [.audio] }; s.schedule = [.audio] ∧ s.stream .audio = []) := by
  decide

theorem witness_PlacedTableWordRunsNext :
    decodeTableWord 32 0x10000000 = some (.pwr .control 0x00#6 0#32) ∧
    decodeTableWord 32 0x40000000 = some (.smp .audio .left 0#32) := by decide

theorem witness_RunServesTheScheduledOrder :
    State.reset.schedule = [] ∧ State.reset.control = [] ∧ State.reset.audio = [] := by decide

theorem witness_PwrClampsMix :
    isNaN 0xFF800001#32 = true ∧
    (isFinite 0x3F800001#32 = true ∧ 1 < realOf 0x3F800001#32) ∧
    (isFinite 0xBF800001#32 = true ∧ realOf 0xBF800001#32 < -1) ∧
    (isFinite 0x3F800000#32 = true ∧ -1 ≤ realOf 0x3F800000#32 ∧ realOf 0x3F800000#32 ≤ 1) ∧
    (isFinite 0xBF800000#32 = true ∧ -1 ≤ realOf 0xBF800000#32 ∧ realOf 0xBF800000#32 ≤ 1) ∧
    (isFinite 0x80000000#32 = true ∧ -1 ≤ realOf 0x80000000#32 ∧ realOf 0x80000000#32 ≤ 1) := by decide +kernel

theorem witness_ReservedIdsDropAndReadZero :
    (0x05 ≤ (0x05#6).toNat ∧ (0x05#6).toNat ≤ 0x1F) ∧ (0x05 ≤ (0x1F#6).toNat ∧ (0x1F#6).toNat ≤ 0x1F) := by decide

theorem witness_PwrTouchesOneRegister :
    (∃ t, exec (.pwr .control 0x21#6 1#32) State.reset = .next t) ∧ (0x20#6 : BitVec 6) ≠ 0x21#6 :=
  ⟨⟨_, rfl⟩, by decide⟩

theorem witness_RestoreOfSavedParametersIsExact : midBlock.p.Legal := midBlock_inv.1

/-- The bit depths at the ends of the range that the stage and table statements assume. -/
theorem witness_bit_depth_range : (2 ≤ 2 ∧ 2 ≤ 24) ∧ (2 ≤ 24 ∧ 24 ≤ 24) := by decide

/-- The ends, both zeros and a subnormal: the legal mix values of GainsStayInTheUnitRange, GainsAreSymmetric and
GainsHaveEqualPower. -/
theorem witness_legal_mix_values :
    MixLegal 0xBF800000#32 ∧ MixLegal 0x3F800000#32 ∧ MixLegal 0x80000000#32 ∧ MixLegal 0x00000000#32 ∧
    MixLegal 0x00000001#32 := by decide

theorem realOf_one : realOf 0x3F800000#32 = 1 ∧ realOf 0xBF800000#32 = -1 := by decide +kernel

theorem witness_GainsAreCorrectlyRounded :
    Real.sin (Real.pi * (((realOf 0xBF800000#32 : ℚ) : ℝ) + 1) / 4) = 0 ∧
    Real.sin (Real.pi * (((realOf 0x3F800000#32 : ℚ) : ℝ) + 1) / 4) ≠ 0 ∧
    Real.cos (Real.pi * (((realOf 0x3F800000#32 : ℚ) : ℝ) + 1) / 4) = 0 ∧
    Real.cos (Real.pi * (((realOf 0xBF800000#32 : ℚ) : ℝ) + 1) / 4) ≠ 0 := by
  rw [realOf_one.1, realOf_one.2]
  have h : Real.pi * (((1 : ℚ) : ℝ) + 1) / 4 = Real.pi / 2 := by push_cast; ring
  have h' : Real.pi * (((-1 : ℚ) : ℝ) + 1) / 4 = 0 := by push_cast; ring
  rw [h, h']
  simp

theorem witness_GainsAreMonotone :
    MixLegal 0xBF800000#32 ∧ MixLegal 0x3F800000#32 ∧ realOf 0xBF800000#32 ≤ realOf 0x3F800000#32 := by
  refine ⟨by decide, by decide, ?_⟩
  rw [realOf_one.1, realOf_one.2]; norm_num

theorem witness_SmpRunsTheFourStages :
    (midState .audio ⟨0#32, 0#32⟩ ⟨0#32, 0#32⟩).blk.Inv := midBlock_inv

theorem witness_QuantizeTruncatesTowardZero :
    midBlock.CacheCoherent ∧
    isNaN (div32 0x7FC00000#32 (qtab 2)) = true ∧ isInf (div32 0x7EAAAAAB#32 (qtab 2)) = true ∧
    (isFinite (div32 0x3E800000#32 (qtab 2)) = true ∧ truncInt (div32 0x3E800000#32 (qtab 2)) = 0) ∧
    (isFinite (div32 0xBF000000#32 (qtab 24)) = true ∧ truncInt (div32 0xBF000000#32 (qtab 24)) ≠ 0) := by
  decide +kernel

theorem witness_QuantizeOfSpecialValues :
    isNaN 0xFF800001#32 = true ∧ isInf 0xFF800000#32 = true ∧ isZero 0x80000000#32 = true ∧
    isSubnormal 0x807FFFFF#32 = true := by decide

theorem witness_QuantizeIsOdd :
    (quantizeBy (qtab 2) 0x3F000000#32 ≠ 0#32 ∧ quantizeBy (qtab 2) 0x3F000000#32 ≠ qnan) ∧
    quantizeBy (qtab 24) 0x80000000#32 = 0#32 ∧ quantizeBy (qtab 24) 0x7F800001#32 = qnan := by decide +kernel

theorem witness_TruncateOfNonFiniteValues :
    isQuietNaN 0x7FC00000#32 = true ∧ isNaN 0xFF800001#32 = true ∧ isFinite 0x7F800000#32 = false := by decide

theorem witness_BitmaskIsAndNotInAnyOrder :
    (∀ k : Fin 32, k ∈ (List.finRange 32).reverse ++ [3]) ∧ midBlock.cfg.masksEnabled = 0#32 ∧
    Block.reset.cfg.masksEnabled ≠ 0#32 := by decide

theorem witness_BitStagesKeepFiniteValuesFinite : isFinite 0x7F7FFFFF#32 = true := by decide

/-- The hypotheses of FullyDryMixIsTheDrySample, and with dry and wet exchanged those of FullyWetMixIsTheWetSample, clause by
clause. -/
theorem witness_FullyDryMixIsTheDrySample :
    (isNaN 0xFF800000#32 = false ∧ isSubnormal 0xFF800000#32 = false ∧ isFinite 0x3F800000#32 = true ∧
      0xFF800000#32 ≠ 0x80000000#32) ∧
    (isFinite 0x3F800000#32 = true ∧ mul32 0#32 0x3F800000#32 = 0#32) ∧
    (isSubnormal 0x80000001#32 = true ∧ mul32 0#32 0xBF800000#32 = 0x80000000#32) ∧
    isNaN 0x7F800001#32 = true ∧ isFinite 0x7F800000#32 = false := by decide +kernel

theorem witness_MulIsCorrectlyRounded :
    isNaN (daz 0x7F800001#32) = true ∧
    (isInf (daz 0x7F800000#32) = true ∧ isZero (daz 0x80000001#32) = true) ∧
    (isInf (daz 0x7F800000#32) = true ∧ isNaN (daz 0x3F800000#32) = false ∧ isZero (daz 0x3F800000#32) = false) ∧
    (isFinite (daz 0x00000001#32) = true ∧ isFinite (daz 0xBF800000#32) = true ∧
      realOf (daz 0x00000001#32) * realOf (daz 0xBF800000#32) = 0) ∧
    (isFinite (daz 0x00800000#32) = true ∧ realOf (daz 0x00800000#32) * realOf (daz 0x00800000#32) ≠ 0) := by
  decide +kernel

theorem witness_DivIsCorrectlyRounded :
    isNaN (daz 0xFFC00000#32) = true ∧
    (isInf (daz 0xFF800000#32) = true ∧ isInf (daz 0x7F800000#32) = true) ∧
    (isInf (daz 0xFF800000#32) = true ∧ isFinite (daz 0x3F800000#32) = true) ∧
    (isZero (daz 0x80000001#32) = true ∧ isFinite (daz 0x3F800000#32) = true ∧ isZero (daz 0x3F800000#32) = false) ∧
    isZero (daz 0x00800000#32) = false := by decide

theorem witness_AddIsCorrectlyRounded :
    isNaN (daz 0x7FC00001#32) = true ∧
    (isInf (daz 0x7F800000#32) = true ∧ isInf (daz 0xFF800000#32) = true ∧
      signBit (daz 0x7F800000#32) ≠ signBit (daz 0xFF800000#32)) ∧
    (isInf (daz 0x7F800000#32) = true ∧ isFinite (daz 0x00000001#32) = true) ∧
    (isFinite (daz 0x3F800000#32) = true ∧ isFinite (daz 0xBF800000#32) = true ∧
      realOf (daz 0x3F800000#32) + realOf (daz 0xBF800000#32) = 0) ∧
    (isFinite (daz 0x80000000#32) = true ∧ realOf (daz 0x80000000#32) + realOf (daz 0x80000000#32) = 0) ∧
    realOf (daz 0x3F800000#32) + realOf (daz 0x3F800000#32) ≠ 0 := by decide +kernel

theorem witness_ArithmeticAnswersAreCanonical :
    isNaN (add32 0x7F800000#32 0xFF800000#32) = true ∧
    (∃ t, exec (.smp .audio .left 0x7F800001#32) State.reset = .next t) := ⟨by decide, ⟨_, rfl⟩⟩

theorem witness_IntegerConversionIsExact : isFinite 0xFF7FFFFF#32 = true := by decide

/-- The hypotheses of HoldPatternOfABlock and ChannelsAreIndependent, at the last index of a list. -/
theorem witness_HoldPatternOfABlock : midBlock.Inv ∧ 4 < [1#32, 2#32, 3#32, 4#32, 5#32].length := ⟨midBlock_inv, by decide⟩

/-- The hypotheses of PhaseCountsSamplesModuloFactor and WritesInsideABlockAreInvisible. -/
theorem witness_stream_without_bstart :
    midBlock.Inv ∧ ∀ t ∈ [smpOn .left 0x3F800000#32, encode (.pwr .control 0x01#6 4#32), smpOn .right 0#32],
      isBstart t = false := ⟨midBlock_inv, by decide⟩

theorem witness_OutputsAfterBstartDependOnParameters :
    let b' := { midBlock with left := ⟨7#32, 2#4⟩, qcBd := 0, qcQ := 0#32 }
    midBlock.Inv ∧ b'.Inv ∧ midBlock.p = b'.p := by
  refine ⟨midBlock_inv, ?_, rfl⟩
  decide +kernel

theorem witness_PblockTreatsEachChannelAlone :
    midBlock.Inv ∧ [0x3F800000#32, 0x40000000#32].length = [0xBF800000#32, 0#32].length := ⟨midBlock_inv, rfl⟩

theorem witness_EveryStepKeepsTheStateLegal :
    (midState .audio ⟨0#32, 0#32⟩ ⟨0x40000000#32, 0x3F800000#32⟩).blk.Inv ∧
    ∃ t, step (midState .audio ⟨0#32, 0#32⟩ ⟨0x40000000#32, 0x3F800000#32⟩) = .next t := ⟨midBlock_inv, ⟨_, rfl⟩⟩

theorem witness_EachElementHasItsWriter :
    (∃ t, exec (.pwr .control 0x01#6 4#32) State.reset = .next t ∧ t.blk.p ≠ State.reset.blk.p) ∧
    (∃ t, exec (.smp .audio .left 0x3F800000#32) State.reset = .next t ∧
      (t.blk.chan .left).held ≠ (State.reset.blk.chan .left).held ∧ t.blk.qcBd ≠ State.reset.blk.qcBd) ∧
    (∃ t, exec (.bstart .audio) { State.reset with blk := midBlock } = .next t ∧
      (t.blk.chan .left).ph ≠ (midBlock.chan .left).ph) :=
  ⟨⟨_, rfl, by decide +kernel⟩, ⟨_, rfl, by decide +kernel⟩, ⟨_, rfl, by decide +kernel⟩⟩

theorem witness_PortsWriteOnlyTheirOwnState :
    (midState .audio ⟨0#32, 0#32⟩ ⟨0#32, 0#32⟩).schedule.head? = some .audio ∧
    (midState .control ⟨0#32, 0#32⟩ ⟨0#32, 0#32⟩).schedule.head? = some .control ∧
    ∃ t, step (midState .control ⟨0#32, 0#32⟩ ⟨0#32, 0#32⟩) = .next t := ⟨by decide, by decide, ⟨_, rfl⟩⟩

end Sys2Proof.Tests
end

/-! Proofs of the statements of 00_scope.md. This part: the classes of a word (R12) and its value, the flush (R15), and
what `rn32` answers on a magnitude that binary32 holds exactly. -/

namespace Sys2Proof.Proofs

open Sys2Proof.Machine Sys2Proof.Laws

/-! ### The classes of R12 exclude one another -/

theorem isNaN_of_isInf {b : Word} (h : isInf b = true) : isNaN b = false := by
  simp_all [isInf, isNaN]

theorem isZero_of_isInf {b : Word} (h : isInf b = true) : isZero b = false := by
  simp_all [isInf, isZero]

theorem isNaN_of_isZero {b : Word} (h : isZero b = true) : isNaN b = false := by
  simp_all [isZero, isNaN]

theorem isInf_of_isZero {b : Word} (h : isZero b = true) : isInf b = false := by
  simp_all [isZero, isInf]

theorem isNaN_of_isFinite {b : Word} (h : isFinite b = true) : isNaN b = false := by
  simp_all [isFinite, isNaN]

theorem isInf_of_isFinite {b : Word} (h : isFinite b = true) : isInf b = false := by
  simp_all [isFinite, isInf]

theorem isNaN_or_isInf_or_isFinite (b : Word) : isNaN b = true ∨ isInf b = true ∨ isFinite b = true := by
  by_cases he : expField b = 255
  · by_cases hf : fracField b = 0 <;> simp [isNaN, isInf, he, hf]
  · simp [isFinite, he]

theorem isSubnormal_of_isInf {b : Word} (h : isInf b = true) : isSubnormal b = false := by
  simp_all [isInf, isSubnormal]

/-- Sign, exponent and fraction determine the word. -/
theorem word_ext {a b : Word} (hs : signBit a = signBit b) (he : expField a = expField b)
    (hf : fracField a = fracField b) : a = b := by
  apply BitVec.eq_of_toNat_eq
  rw [signBit_eq, signBit_eq, decide_eq_decide] at hs
  rw [expField_eq, expField_eq] at he
  rw [fracField_eq, fracField_eq] at hf
  have := a.isLt
  have := b.isLt
  omega

/-- There is one infinity of each sign. -/
theorem eq_of_isInf {a b : Word} (ha : isInf a = true) (hb : isInf b = true) (hs : signBit a = signBit b) : a = b := by
  simp only [isInf, Bool.and_eq_true, beq_iff_eq] at ha hb
  exact word_ext hs (ha.1.trans hb.1.symm) (ha.2.trans hb.2.symm)

/-- −0 is the zero whose sign is set. -/
theorem isZero_and_signBit (b : Word) : (isZero b && signBit b) = decide (b = 0x80000000#32) := by
  rw [Bool.eq_iff_iff, decide_eq_true_iff]
  constructor
  · intro h
    simp only [isZero, Bool.and_eq_true, beq_iff_eq] at h
    obtain ⟨⟨he, hf⟩, hs⟩ := h
    exact word_ext (hs.trans (by decide)) (he.trans (by decide)) (hf.trans (by decide))
  · rintro rfl; decide

/-! ### The value of a word -/

theorem mag_eq_zero_iff (b : Word) : mag b = 0 ↔ isZero b = true := by
  unfold mag isZero
  split <;> simp [*]

theorem mag_pos {b : Word} (h : isZero b = false) : 0 < mag b := by
  rw [Nat.pos_iff_ne_zero, Ne, mag_eq_zero_iff, h]; decide

/-- R12's value of a word: its sign and its magnitude. -/
theorem realOf_eq_sign_mul_mag (b : Word) :
    ((realOf b : ℚ) : ℝ) = (if signBit b then -1 else 1) * ((mag b : ℝ) / 2 ^ 149) := by
  unfold realOf units
  split <;> push_cast <;> ring

theorem realOf_eq_zero_iff (b : Word) : realOf b = 0 ↔ isZero b = true := by
  rw [← mag_eq_zero_iff, realOf, div_eq_zero_iff, Int.cast_eq_zero, units]
  split <;> simp

/-! ### DAZ and FTZ (R15) -/

@[simp] theorem isSubnormal_zeroOf (neg : Bool) : isSubnormal (zeroOf neg) = false := by cases neg <;> decide
@[simp] theorem isNaN_zeroOf (neg : Bool) : isNaN (zeroOf neg) = false := by cases neg <;> decide
@[simp] theorem isSubnormal_infOf (neg : Bool) : isSubnormal (infOf neg) = false := by cases neg <;> decide
@[simp] theorem isNaN_infOf (neg : Bool) : isNaN (infOf neg) = false := by cases neg <;> decide

@[simp] theorem isSubnormal_daz (b : Word) : isSubnormal (daz b) = false := by
  unfold daz
  split
  · exact isSubnormal_zeroOf _
  · exact Bool.eq_false_iff.2 ‹_›

theorem isNaN_daz_of_not_isNaN {b : Word} (h : isNaN b = false) : isNaN (daz b) = false := by
  unfold daz
  split
  · exact isNaN_zeroOf _
  · exact h

/-! ### Rounding -/

/-- Rounding never gives a NaN: its largest magnitude is the infinity. -/
theorem isNaN_rn32 (neg : Bool) (num den : Nat) : isNaN (rn32 neg num den) = false := by
  have hle : rnMag num den ≤ 0x7F800000 := Nat.min_le_right _ _
  rw [rn32, isNaN, expField_signed neg (by omega), fracField_signed neg (by omega), Bool.and_eq_false_iff]
  simp only [beq_eq_false_iff_ne, bne_eq_false_iff_eq]
  omega

theorem roundHalfEven_mul (n : Nat) {den : Nat} (hd : 0 < den) : roundHalfEven (n * den) den = n := by
  simp [roundHalfEven, Nat.mul_div_cancel n hd, hd]

/-- The exponent that `rnMag` finds for n quanta of 2^k units is k. -/
theorem log2_quanta {k n : Nat} (hk : k = 0 ∨ 2 ^ 23 ≤ n) (hn : n < 2 ^ 24) : Nat.log2 (n * 2 ^ k) - 23 = k := by
  rcases Nat.eq_zero_or_pos n with rfl | h0
  · obtain rfl : k = 0 := by omega
    decide
  have hpos : n * 2 ^ k ≠ 0 := by positivity
  have hhi : Nat.log2 (n * 2 ^ k) < 24 + k := by
    rw [Nat.log2_lt hpos, pow_add]
    exact Nat.mul_lt_mul_of_pos_right hn (by positivity)
  rcases hk with rfl | hlo
  · omega
  · have : 23 + k ≤ Nat.log2 (n * 2 ^ k) := by
      rw [Nat.le_log2 hpos, pow_add]
      exact Nat.mul_le_mul_right _ hlo
    omega

/-- Rounding is exact where binary32 holds the magnitude: n quanta of 2^k units round to the word of n quanta. -/
theorem rn32_quanta (neg : Bool) {k n : Nat} (hk : k = 0 ∨ 2 ^ 23 ≤ n) (hn : n < 2 ^ 24)
    (hfin : k * 2 ^ 23 + n < 0x7F800000) :
    rn32 neg (n * 2 ^ k) 1 = BitVec.ofNat 32 (k * 2 ^ 23 + n + if neg then 2 ^ 31 else 0) := by
  have hmag : rnMag (n * 2 ^ k) 1 = k * 2 ^ 23 + n := by
    rw [rnMag, Nat.div_one, log2_quanta hk hn, Nat.one_mul, roundHalfEven_mul n (by positivity)]
    exact Nat.min_eq_left hfin.le
  rw [rn32, hmag]

/-- The word that n quanta of 2^k units round to is finite and has their sign and value. -/
theorem rn32_quanta_value (neg : Bool) {k n : Nat} (hk : k = 0 ∨ 2 ^ 23 ≤ n) (hn : n < 2 ^ 24)
    (hfin : k * 2 ^ 23 + n < 0x7F800000) :
    isFinite (rn32 neg (n * 2 ^ k) 1) = true ∧ signBit (rn32 neg (n * 2 ^ k) 1) = neg ∧
      mag (rn32 neg (n * 2 ^ k) 1) = n * 2 ^ k := by
  rw [rn32_quanta neg hk hn hfin]
  refine ⟨?_, signBit_signed neg (by omega), mag_signed neg hk hn.le (by omega)⟩
  rw [isFinite, expField_signed neg (by omega), bne_iff_ne]
  omega

/-- A finite word lies below the infinity. -/
theorem toNat_mod_lt_of_isFinite {b : Word} (h : isFinite b = true) : b.toNat % 2 ^ 31 < 0x7F800000 := by
  rw [isFinite, bne_iff_ne, expField_eq] at h
  omega

/-! ### F32 of a truncation (R19) -/

/-- A number below 2^24 of whole ones is a number of quanta: its leading bit moves to bit 23. -/
theorem quanta_of_small {m : Nat} (h0 : m ≠ 0) (hm : m < 2 ^ 24) :
    ∃ k n, 2 ^ 23 ≤ n ∧ n < 2 ^ 24 ∧ k < 150 ∧ m * 2 ^ 149 = n * 2 ^ k := by
  have hl : Nat.log2 m < 24 := (Nat.log2_lt h0).2 hm
  have hlo : 2 ^ Nat.log2 m ≤ m := Nat.log2_self_le h0
  have hhi : m < 2 ^ (Nat.log2 m + 1) := Nat.lt_log2_self
  have hsplit : 149 = 23 - Nat.log2 m + (126 + Nat.log2 m) := by omega
  refine ⟨126 + Nat.log2 m, m * 2 ^ (23 - Nat.log2 m), ?_, ?_, by omega, ?_⟩
  · calc 2 ^ 23 = 2 ^ Nat.log2 m * 2 ^ (23 - Nat.log2 m) := by rw [← pow_add]; congr 1; omega
      _ ≤ m * 2 ^ (23 - Nat.log2 m) := Nat.mul_le_mul_right _ hlo
  · calc m * 2 ^ (23 - Nat.log2 m) < 2 ^ (Nat.log2 m + 1) * 2 ^ (23 - Nat.log2 m) :=
          Nat.mul_lt_mul_of_pos_right hhi (by positivity)
      _ = 2 ^ 24 := by rw [← pow_add]; congr 1; omega
  · rw [Nat.mul_assoc, ← pow_add, ← hsplit]

/-- The whole part of a finite word is a number of quanta below the infinity, so binary32 holds it: from 2^23 on the word
is whole itself, and below its whole part has at most 24 bits. -/
theorem whole_part_quanta {b : Word} (hb : isFinite b = true) (h0 : mag b / 2 ^ 149 ≠ 0) :
    ∃ k n, (k = 0 ∨ 2 ^ 23 ≤ n) ∧ n < 2 ^ 24 ∧ k * 2 ^ 23 + n < 0x7F800000 ∧
      mag b / 2 ^ 149 * 2 ^ 149 = n * 2 ^ k := by
  obtain ⟨k, n, hk, hn, hword, hmag⟩ := mag_eq_quanta b
  rcases Nat.lt_or_ge k 149 with hlt | hge
  · have hsmall : mag b / 2 ^ 149 < 2 ^ 24 := by
      rw [Nat.div_lt_iff_lt_mul (by positivity), hmag]
      calc n * 2 ^ k ≤ n * 2 ^ 149 := Nat.mul_le_mul_left _ (Nat.pow_le_pow_right (by decide) hlt.le)
        _ < 2 ^ 24 * 2 ^ 149 := Nat.mul_lt_mul_of_pos_right hn (by positivity)
    obtain ⟨k', n', hlo, hhi, hk', heq⟩ := quanta_of_small h0 hsmall
    exact ⟨k', n', Or.inr hlo, hhi, by omega, heq⟩
  · have hdvd : 2 ^ 149 ∣ mag b := hmag ▸ Dvd.dvd.mul_left (pow_dvd_pow 2 hge) n
    refine ⟨k, n, hk, hn, hword ▸ toNat_mod_lt_of_isFinite hb, ?_⟩
    rw [Nat.div_mul_cancel hdvd, hmag]

theorem natAbs_truncInt (b : Word) : (truncInt b).natAbs = mag b / 2 ^ 149 := by
  unfold truncInt
  split
  · rw [Int.natAbs_neg, Int.natAbs_natCast]
  · rw [Int.natAbs_natCast]

/-- A word of the sign and magnitude of an integer k, in whole ones, has the value k. -/
theorem realOf_of_sign_mag {w : Word} {k : Int} (hs : signBit w = decide (k < 0)) (hm : mag w = k.natAbs * 2 ^ 149) :
    realOf w = k := by
  have hunits : units w = k * 2 ^ 149 := by
    rw [units, hs, hm]
    split <;> rename_i h <;> rw [decide_eq_true_iff] at h <;> push_cast
    · rw [abs_of_neg h]; ring
    · rw [abs_of_nonneg (not_lt.1 h)]
  rw [realOf, hunits]
  rw [Int.cast_mul, Int.cast_pow, Int.cast_ofNat]
  exact mul_div_cancel_right₀ _ (by positivity)

theorem f32OfInt_truncInt_exact {b : Word} (hb : isFinite b = true) :
    isFinite (f32OfInt (truncInt b)) = true ∧ realOf (f32OfInt (truncInt b)) = truncInt b := by
  by_cases h0 : truncInt b = 0
  · rw [h0]; decide +kernel
  · have hw : mag b / 2 ^ 149 ≠ 0 := by rwa [← natAbs_truncInt, Ne, Int.natAbs_eq_zero]
    obtain ⟨k, n, hk, hn, hfin, heq⟩ := whole_part_quanta hb hw
    have hf : f32OfInt (truncInt b) = rn32 (decide (truncInt b < 0)) (n * 2 ^ k) 1 := by
      rw [f32OfInt, if_neg h0, natAbs_truncInt, heq]
    obtain ⟨hF, hS, hM⟩ := rn32_quanta_value (decide (truncInt b < 0)) hk hn hfin
    rw [hf]
    exact ⟨hF, realOf_of_sign_mag hS (by rw [hM, natAbs_truncInt, heq])⟩

/-- Settles O45: the whole part of a finite word has at most 24 significant bits, so rounding it is exact. -/
theorem integerConversionIsExact : Obligations.IntegerConversionIsExact := by
  intro b hb
  obtain ⟨hfin, hval⟩ := f32OfInt_truncInt_exact hb
  exact ⟨hfin, hval, rfl⟩

end Sys2Proof.Proofs

/-! The three operations (R16, R17, R18), an equation per class of their operands, and what they answer. -/

namespace Sys2Proof.Proofs

open Sys2Proof.Machine Sys2Proof.Laws

/-- Signs multiply as their bits differ. -/
theorem sign_bne (s t : Bool) :
    (if (s != t) = true then (-1 : ℝ) else 1) = (if s = true then -1 else 1) * (if t = true then -1 else 1) := by
  cases s <;> cases t <;> simp

/-! ### Mul32 after DAZ (R16) -/

theorem mulDazed_of_isNaN {a b : Word} (h : isNaN a = true ∨ isNaN b = true) : mulDazed a b = qnan := by
  simp [mulDazed, h]

theorem mulDazed_of_isInf_isZero {a b : Word}
    (h : (isInf a = true ∧ isZero b = true) ∨ (isZero a = true ∧ isInf b = true)) : mulDazed a b = qnan := by
  simp [mulDazed, h]

theorem mulDazed_of_isInf {a b : Word}
    (h : (isInf a = true ∧ isNaN b = false ∧ isZero b = false) ∨
      (isInf b = true ∧ isNaN a = false ∧ isZero a = false)) :
    mulDazed a b = infOf (signBit a != signBit b) := by
  obtain ⟨hi, hn, hz⟩ | ⟨hi, hn, hz⟩ := h <;> simp [mulDazed, hi, hn, hz, isNaN_of_isInf hi, isZero_of_isInf hi]

theorem mulDazed_of_isZero {a b : Word} (ha : isFinite a = true) (hb : isFinite b = true)
    (h : isZero a = true ∨ isZero b = true) : mulDazed a b = zeroOf (signBit a != signBit b) := by
  simp [mulDazed, isNaN_of_isFinite, isInf_of_isFinite, ha, hb, h]

theorem mulDazed_of_nonzero {a b : Word} (ha : isFinite a = true) (hb : isFinite b = true)
    (ha0 : isZero a = false) (hb0 : isZero b = false) :
    mulDazed a b = ftz (rn32 (signBit a != signBit b) (mag a * mag b) (2 ^ 149)) := by
  simp [mulDazed, isNaN_of_isFinite, isInf_of_isFinite, ha, hb, ha0, hb0]

/-- The word that `mulDazed` flushes is the rounded real product. -/
theorem isRN32_mul {a b : Word} (ha0 : isZero a = false) (hb0 : isZero b = false) :
    IsRN32 ((realOf a * realOf b : ℚ) : ℝ) (rn32 (signBit a != signBit b) (mag a * mag b) (2 ^ 149)) := by
  have hval : ((realOf a * realOf b : ℚ) : ℝ) =
      (if signBit a != signBit b then -1 else 1) * (((mag a * mag b : ℕ) : ℝ) / ((2 ^ 149 : ℕ) : ℝ) / 2 ^ 149) := by
    rw [Rat.cast_mul, realOf_eq_sign_mul_mag, realOf_eq_sign_mul_mag, sign_bne, Nat.cast_mul, Nat.cast_pow,
      Nat.cast_ofNat]
    ring
  rw [hval]
  exact rn32_isRN32 _ (Nat.mul_pos (mag_pos ha0) (mag_pos hb0)) (by positivity)

/-- Settles O41: the classes of the operands in R16's order, and the product of two non-zero finite words rounded once. -/
theorem mulIsCorrectlyRounded : Obligations.MulIsCorrectlyRounded := by
  intro a b
  refine ⟨mulDazed_of_isNaN, mulDazed_of_isInf_isZero, mulDazed_of_isInf, fun ha hb h0 => ?_, fun ha hb h0 => ?_⟩
  · rw [mul_eq_zero, realOf_eq_zero_iff, realOf_eq_zero_iff] at h0
    exact mulDazed_of_isZero ha hb h0
  · rw [mul_ne_zero_iff, Ne, Ne, realOf_eq_zero_iff, realOf_eq_zero_iff, Bool.not_eq_true, Bool.not_eq_true] at h0
    exact ⟨_, isRN32_mul h0.1 h0.2, mulDazed_of_nonzero ha hb h0.1 h0.2⟩

/-! ### Div32 after DAZ (R17) -/

theorem divDazed_of_isNaN {a b : Word} (h : isNaN a = true ∨ isNaN b = true) : divDazed a b = qnan := by
  simp [divDazed, h]

theorem divDazed_of_same_special {a b : Word}
    (h : (isInf a = true ∧ isInf b = true) ∨ (isZero a = true ∧ isZero b = true)) : divDazed a b = qnan := by
  simp [divDazed, h]

theorem divDazed_eq_infOf {a b : Word}
    (h : (isInf a = true ∧ isFinite b = true) ∨ (isZero b = true ∧ isFinite a = true ∧ isZero a = false)) :
    divDazed a b = infOf (signBit a != signBit b) := by
  obtain ⟨hi, hf⟩ | ⟨hz, hf, hz'⟩ := h
  · simp [divDazed, hi, isNaN_of_isInf hi, isZero_of_isInf hi, isNaN_of_isFinite hf, isInf_of_isFinite hf]
  · simp [divDazed, hz, hz', isNaN_of_isZero hz, isInf_of_isZero hz, isNaN_of_isFinite hf, isInf_of_isFinite hf]

theorem divDazed_eq_zeroOf {a b : Word}
    (h : (isInf b = true ∧ isFinite a = true) ∨ (isZero a = true ∧ isFinite b = true ∧ isZero b = false)) :
    divDazed a b = zeroOf (signBit a != signBit b) := by
  obtain ⟨hi, hf⟩ | ⟨hz, hf, hz'⟩ := h
  · simp [divDazed, hi, isNaN_of_isInf hi, isZero_of_isInf hi, isNaN_of_isFinite hf, isInf_of_isFinite hf]
  · simp [divDazed, hz, hz', isNaN_of_isZero hz, isInf_of_isZero hz, isNaN_of_isFinite hf, isInf_of_isFinite hf]

theorem divDazed_of_nonzero {a b : Word} (ha : isFinite a = true) (hb : isFinite b = true)
    (ha0 : isZero a = false) (hb0 : isZero b = false) :
    divDazed a b = ftz (rn32 (signBit a != signBit b) (mag a * 2 ^ 149) (mag b)) := by
  simp [divDazed, isNaN_of_isFinite, isInf_of_isFinite, ha, hb, ha0, hb0]

/-- The word that `divDazed` flushes is the rounded real quotient. -/
theorem isRN32_div {a b : Word} (ha0 : isZero a = false) (hb0 : isZero b = false) :
    IsRN32 ((realOf a / realOf b : ℚ) : ℝ) (rn32 (signBit a != signBit b) (mag a * 2 ^ 149) (mag b)) := by
  have hb : (mag b : ℝ) ≠ 0 := Nat.cast_ne_zero.2 (mag_pos hb0).ne'
  have hsign : (if signBit b then (-1 : ℝ) else 1)⁻¹ = if signBit b then -1 else 1 := by split <;> norm_num
  have hval : ((realOf a / realOf b : ℚ) : ℝ) =
      (if signBit a != signBit b then -1 else 1) * (((mag a * 2 ^ 149 : ℕ) : ℝ) / (mag b : ℝ) / 2 ^ 149) := by
    rw [Rat.cast_div, realOf_eq_sign_mul_mag, realOf_eq_sign_mul_mag, sign_bne, Nat.cast_mul, Nat.cast_pow,
      Nat.cast_ofNat, mul_div_mul_comm, div_eq_mul_inv (ite _ _ _), hsign]
    congr 1
    field_simp
  rw [hval]
  exact rn32_isRN32 _ (Nat.mul_pos (mag_pos ha0) (by positivity)) (mag_pos hb0)

/-- Settles O42: the classes of the operands in R17's order, and the quotient of two non-zero finite words rounded once. -/
theorem divIsCorrectlyRounded : Obligations.DivIsCorrectlyRounded := by
  intro a b
  exact ⟨divDazed_of_isNaN, divDazed_of_same_special, divDazed_eq_infOf, divDazed_eq_zeroOf, fun ha hb ha0 hb0 =>
    ⟨_, isRN32_div ha0 hb0, divDazed_of_nonzero ha hb ha0 hb0⟩⟩

/-! ### Add32 after DAZ (R18) -/

theorem addDazed_of_isNaN {a b : Word} (h : isNaN a = true ∨ isNaN b = true) : addDazed a b = qnan := by
  simp [addDazed, h]

theorem addDazed_of_opposite_isInf {a b : Word} (ha : isInf a = true) (hb : isInf b = true)
    (hs : signBit a ≠ signBit b) : addDazed a b = qnan := by
  simp [addDazed, ha, hb, hs]

theorem addDazed_of_isInf_left {a b : Word} (ha : isInf a = true) (hb : isFinite b = true ∨ b = a) :
    addDazed a b = a := by
  obtain hf | rfl := hb
  · simp [addDazed, ha, isNaN_of_isInf ha, isNaN_of_isFinite hf, isInf_of_isFinite hf]
  · simp [addDazed, ha, isNaN_of_isInf ha]

theorem addDazed_of_isInf_right {a b : Word} (hb : isInf b = true) (ha : isFinite a = true ∨ a = b) :
    addDazed a b = b := by
  obtain hf | rfl := ha
  · simp [addDazed, hb, isNaN_of_isInf hb, isNaN_of_isFinite hf, isInf_of_isFinite hf]
  · exact addDazed_of_isInf_left hb (Or.inr rfl)

theorem addDazed_of_isFinite {a b : Word} (ha : isFinite a = true) (hb : isFinite b = true) :
    addDazed a b = if units a + units b = 0 then zeroOf (isZero a && signBit a && isZero b && signBit b)
      else ftz (rn32 (decide (units a + units b < 0)) (units a + units b).natAbs 1) := by
  simp [addDazed, isNaN_of_isFinite, isInf_of_isFinite, ha, hb]

/-- R18's sum does not depend on the order of its operands. Two infinities of one sign, where it answers the first, are
one word. -/
theorem addDazed_comm (a b : Word) : addDazed a b = addDazed b a := by
  rcases isNaN_or_isInf_or_isFinite a with ha | ha | ha
  · rw [addDazed_of_isNaN (Or.inl ha), addDazed_of_isNaN (Or.inr ha)]
  · rcases isNaN_or_isInf_or_isFinite b with hb | hb | hb
    · rw [addDazed_of_isNaN (Or.inl hb), addDazed_of_isNaN (Or.inr hb)]
    · by_cases hs : signBit a = signBit b
      · rw [eq_of_isInf ha hb hs]
      · rw [addDazed_of_opposite_isInf ha hb hs, addDazed_of_opposite_isInf hb ha (Ne.symm hs)]
    · rw [addDazed_of_isInf_left ha (Or.inl hb), addDazed_of_isInf_right ha (Or.inl hb)]
  · rcases isNaN_or_isInf_or_isFinite b with hb | hb | hb
    · rw [addDazed_of_isNaN (Or.inl hb), addDazed_of_isNaN (Or.inr hb)]
    · rw [addDazed_of_isInf_left hb (Or.inl ha), addDazed_of_isInf_right hb (Or.inl ha)]
    · have hzero : (isZero a && signBit a && isZero b && signBit b) =
          (isZero b && signBit b && isZero a && signBit a) := by
        rw [Bool.and_assoc, Bool.and_comm, Bool.and_assoc (isZero b && signBit b)]
      rw [addDazed_of_isFinite ha hb, addDazed_of_isFinite hb ha, Int.add_comm, hzero]

theorem realOf_add (a b : Word) : realOf a + realOf b = ((units a + units b : ℤ) : ℚ) / 2 ^ 149 := by
  rw [realOf, realOf, Int.cast_add, add_div]

theorem realOf_add_eq_zero_iff (a b : Word) : realOf a + realOf b = 0 ↔ units a + units b = 0 := by
  rw [realOf_add, div_eq_zero_iff, Int.cast_eq_zero]
  norm_num

/-- An exact zero sum is −0 for two −0 alone. -/
theorem zeroOf_both_negative_zero (a b : Word) : zeroOf (isZero a && signBit a && isZero b && signBit b) =
    if a = 0x80000000#32 ∧ b = 0x80000000#32 then 0x80000000#32 else 0x00000000#32 := by
  rw [Bool.and_assoc, isZero_and_signBit, isZero_and_signBit, ← Bool.decide_and, zeroOf]
  simp only [decide_eq_true_iff]

/-- The word that `addDazed` flushes is the rounded real sum. -/
theorem isRN32_add {a b : Word} (h : units a + units b ≠ 0) :
    IsRN32 ((realOf a + realOf b : ℚ) : ℝ)
      (rn32 (decide (units a + units b < 0)) (units a + units b).natAbs 1) := by
  have hval : ((realOf a + realOf b : ℚ) : ℝ) = (if decide (units a + units b < 0) then -1 else 1) *
      (((units a + units b).natAbs : ℝ) / ((1 : ℕ) : ℝ) / 2 ^ 149) := by
    rw [realOf_add, Nat.cast_natAbs]
    generalize units a + units b = r
    simp only [decide_eq_true_iff]
    split <;> rename_i hr <;> push_cast
    · rw [abs_of_neg (by exact_mod_cast hr)]; ring
    · rw [abs_of_nonneg (by exact_mod_cast not_lt.1 hr)]; ring
  rw [hval]
  exact rn32_isRN32 _ (Int.natAbs_pos.2 h) Nat.one_pos

/-- Settles O43: the classes of the operands in R18's order, the sum of two finite words rounded once, and the order of
the operands decides nothing. -/
theorem addIsCorrectlyRounded : Obligations.AddIsCorrectlyRounded := by
  refine ⟨fun a b => ⟨addDazed_of_isNaN, addDazed_of_opposite_isInf, addDazed_of_isInf_left, addDazed_of_isInf_right,
    fun ha hb h0 => ?_, fun ha hb h0 => ?_⟩, fun a b => addDazed_comm _ _⟩
  · rw [add32, addDazed_of_isFinite ha hb, if_pos ((realOf_add_eq_zero_iff _ _).1 h0), zeroOf_both_negative_zero]
  · have h0' : units (daz a) + units (daz b) ≠ 0 := mt (realOf_add_eq_zero_iff _ _).2 h0
    exact ⟨_, isRN32_add h0', by rw [add32, addDazed_of_isFinite ha hb, if_neg h0']⟩

/-! ### What the arithmetic answers (R13, R15, R201) -/

/-- A word the arithmetic may answer: no NaN but QNAN (R13) and no subnormal (R15). -/
abbrev Canonical (w : Word) : Prop := (isNaN w = true → w = qnan) ∧ isSubnormal w = false

theorem canonical_qnan : Canonical qnan := by decide

theorem canonical_zeroOf (neg : Bool) : Canonical (zeroOf neg) := by simp [Canonical]

theorem canonical_infOf (neg : Bool) : Canonical (infOf neg) := by simp [Canonical]

theorem canonical_of_isInf {w : Word} (h : isInf w = true) : Canonical w :=
  ⟨by simp [isNaN_of_isInf h], isSubnormal_of_isInf h⟩

/-- A rounded and flushed result: rounding gives no NaN, flushing leaves no subnormal. -/
theorem canonical_ftz_rn32 (neg : Bool) (num den : Nat) : Canonical (ftz (rn32 neg num den)) :=
  ⟨by simp [ftz, isNaN_daz_of_not_isNaN (isNaN_rn32 neg num den)], isSubnormal_daz _⟩

theorem canonical_mul32 (a b : Word) : Canonical (mul32 a b) := by
  unfold mul32 mulDazed
  simp only
  split
  · exact canonical_qnan
  split
  · exact canonical_qnan
  split
  · exact canonical_infOf _
  split
  · exact canonical_zeroOf _
  · exact canonical_ftz_rn32 _ _ _

theorem canonical_div32 (a b : Word) : Canonical (div32 a b) := by
  unfold div32 divDazed
  simp only
  split
  · exact canonical_qnan
  split
  · exact canonical_qnan
  split
  · exact canonical_infOf _
  split
  · exact canonical_zeroOf _
  · exact canonical_ftz_rn32 _ _ _

theorem canonical_add32 (a b : Word) : Canonical (add32 a b) := by
  unfold add32 addDazed
  simp only
  split
  · exact canonical_qnan
  split
  · exact canonical_qnan
  split
  · exact canonical_of_isInf ‹_›
  split
  · exact canonical_of_isInf ‹_›
  split
  · exact canonical_zeroOf _
  · exact canonical_ftz_rn32 _ _ _

/-- Settles O44: every branch of the three operations answers a canonical word, and the RESP of an SMP is a sum. -/
theorem arithmeticAnswersAreCanonical : Obligations.ArithmeticAnswersAreCanonical := by
  refine ⟨fun a b w hw => ?_, fun s t c x h => ?_⟩
  · simp only [List.mem_cons, List.not_mem_nil, or_false] at hw
    obtain rfl | rfl | rfl := hw
    · exact canonical_mul32 a b
    · exact canonical_div32 a b
    · exact canonical_add32 a b
  · rw [exec_eq] at h
    obtain rfl := Host.Outcome.next.inj h
    exact canonical_add32 _ _

end Sys2Proof.Proofs

/-! The gains (R20, R160). -/

namespace Sys2Proof.Proofs

open Sys2Proof.Machine Sys2Proof.Laws

/-- At 1/2 the cosine is 0, and CosPi32 answers +0. -/
theorem cosPi32_half : cosPi32 (2 ^ 150) = 0x00000000#32 := by decide +kernel

/-- CosPi32 on the angles of R160: +0 where the cosine is 0, its rounding elsewhere. -/
theorem cosPi32_spec {a : ℕ} (ha : a ≤ 2 ^ 150) :
    (cosAt 150 a = 0 → cosPi32 a = 0x00000000#32) ∧ (cosAt 150 a ≠ 0 → IsRN32 (cosAt 150 a) (cosPi32 a)) := by
  refine ⟨fun h0 => ?_, fun h0 => ?_⟩
  · obtain hlt | rfl := ha.lt_or_eq
    · exact absurd h0 (cosAt_pos hlt).ne'
    · exact cosPi32_half
  · exact nearestWord_isRN32 (cosCompare_spec ha) ((cosAt_nonneg ha).lt_of_ne' h0) (Real.cos_le_one _)

/-- A legal mix value has a magnitude of at most one (R34). -/
theorem mag_le_one_of_mixLegal {m : Word} (h : MixLegal m) : mag m ≤ 2 ^ 149 := by
  obtain ⟨k, n, hk, hn, hword, hmag⟩ := mag_eq_quanta m
  have hle : k * 2 ^ 23 + n ≤ 126 * 2 ^ 23 + 2 ^ 23 := by omega
  rw [hmag]
  rcases Nat.lt_or_ge k 126 with hlt | hge
  · calc n * 2 ^ k ≤ 2 ^ 24 * 2 ^ 125 := Nat.mul_le_mul hn.le (Nat.pow_le_pow_right (by decide) (by omega))
      _ = 2 ^ 149 := by rw [← pow_add]
  · obtain rfl : k = 126 := by omega
    calc n * 2 ^ 126 ≤ 2 ^ 23 * 2 ^ 126 := Nat.mul_le_mul_right _ (by omega)
      _ = 2 ^ 149 := by rw [← pow_add]

theorem units_bounds_of_mixLegal {m : Word} (h : MixLegal m) : -2 ^ 149 ≤ units m ∧ units m ≤ 2 ^ 149 := by
  have hm : (mag m : ℤ) ≤ 2 ^ 149 := by exact_mod_cast mag_le_one_of_mixLegal h
  unfold units
  split <;> omega

theorem mixAngle_le {m : Word} (h : MixLegal m) : mixAngle m ≤ 2 ^ 150 := by
  have := (units_bounds_of_mixLegal h).2
  unfold mixAngle
  omega

/-- R160's angle: π·p = π·(real(m) + 1)/4 is π·a/2^151 for the angle a of the mix value. -/
theorem mixAngle_radians {m : Word} (h : MixLegal m) :
    Real.pi * (((realOf m : ℚ) : ℝ) + 1) / 4 = Real.pi * (mixAngle m : ℝ) / 2 ^ 151 := by
  have hnonneg : 0 ≤ units m + 2 ^ 149 := by linarith [(units_bounds_of_mixLegal h).1]
  have hangle : (mixAngle m : ℝ) = (units m : ℝ) + 2 ^ 149 := by
    have : ((mixAngle m : ℤ) : ℝ) = ((units m + 2 ^ 149 : ℤ) : ℝ) := by rw [mixAngle, Int.toNat_of_nonneg hnonneg]
    rw [Int.cast_natCast, Int.cast_add, Int.cast_pow, Int.cast_ofNat] at this
    exact this
  rw [hangle, realOf, Rat.cast_div, Rat.cast_intCast, Rat.cast_pow, Rat.cast_ofNat]
  ring

theorem cos_mix_eq_cosAt {m : Word} (h : MixLegal m) :
    Real.cos (Real.pi * (((realOf m : ℚ) : ℝ) + 1) / 4) = cosAt 150 (mixAngle m) := by
  rw [mixAngle_radians h, cosAt]

/-- sin(π·p) = cos(π·(1/2 − p)) (R20). -/
theorem sin_mix_eq_cosAt {m : Word} (h : MixLegal m) :
    Real.sin (Real.pi * (((realOf m : ℚ) : ℝ) + 1) / 4) = cosAt 150 (2 ^ 150 - mixAngle m) := by
  rw [mixAngle_radians h, ← Real.cos_pi_div_two_sub, cosAt, Nat.cast_sub (mixAngle_le h), Nat.cast_pow, Nat.cast_ofNat]
  congr 1
  ring

/-- Settles O24: both gains are CosPi32 of an angle in [0, π/2], whose comparisons with the words' values are exact. -/
theorem gainsAreCorrectlyRounded : Obligations.GainsAreCorrectlyRounded := by
  intro m hm
  rw [sin_mix_eq_cosAt hm, cos_mix_eq_cosAt hm]
  obtain ⟨hwet0, hwet⟩ := cosPi32_spec (Nat.sub_le (2 ^ 150) (mixAngle m))
  obtain ⟨hdry0, hdry⟩ := cosPi32_spec (mixAngle_le hm)
  exact ⟨hwet0, hwet, hdry0, hdry⟩

end Sys2Proof.Proofs

/-! The constant tables of 10_state.md (R47 to R49) and CFG.MASKVEC (R42), bit by bit. -/

namespace Sys2Proof.Proofs

open Sys2Proof.Machine Sys2Proof.Laws

theorem getLsbD_bitMask {k j : Nat} (hj : j < 32) : (bitMask k).getLsbD j = decide (j = k) := by
  rw [bitMask, BitVec.getLsbD_shiftLeft, BitVec.getLsbD_one]
  simp only [hj]
  grind

theorem getLsbD_tmask {b j : Nat} (hb : 2 ≤ b) (hj : j < 32) : (tmask b).getLsbD j = decide (27 - b ≤ j) := by
  have hshift : ((1#32 <<< (27 - b)) - 1#32).toNat = 2 ^ (27 - b) - 1 := by
    have hlt : 2 ^ (27 - b) < 2 ^ 32 := Nat.pow_lt_pow_right (by decide) (by omega)
    have hpos : 0 < 2 ^ (27 - b) := by positivity
    have hone : (1#32 <<< (27 - b)).toNat = 2 ^ (27 - b) := by
      rw [BitVec.toNat_shiftLeft, Nat.shiftLeft_eq, BitVec.toNat_ofNat, Nat.mod_eq_of_lt] <;> omega
    rw [BitVec.toNat_sub_of_le (by rw [BitVec.le_def, hone]; exact hpos), hone]
    rfl
  rw [tmask, BitVec.getLsbD_not, BitVec.getLsbD, hshift, Nat.testBit_two_pow_sub_one]
  simp [hj, ← decide_not]

/-- Settles O46: the bits of the shifted ones, and the listed words by evaluation. -/
theorem maskTablesAreTheirFormulas : Obligations.MaskTablesAreTheirFormulas :=
  ⟨fun _ _ _ hj => getLsbD_bitMask hj, fun _ _ hb _ hj => getLsbD_tmask hb hj, by decide +kernel⟩

/-- QTAB[b] is the rounding of 2^149 units divided by 2^b − 1. -/
theorem qtab_isRN32 {b : Nat} (hb : b ≠ 0) : IsRN32 (1 / (2 ^ b - 1)) (qtab b) := by
  have hden : 0 < 2 ^ b - 1 := Nat.sub_pos_of_lt (Nat.one_lt_two_pow hb)
  have hval : (1 : ℝ) / (2 ^ b - 1) = (if false then -1 else 1) * ((2 ^ 149 : ℕ) / (2 ^ b - 1 : ℕ) / 2 ^ 149) := by
    rw [Nat.cast_pred (Nat.two_pow_pos b)]
    push_cast
    ring
  rw [hval]
  exact rn32_isRN32 false (Nat.two_pow_pos 149) hden

/-- Settles O47: QTAB is a rounded quotient by definition; the listed words by evaluation. -/
theorem quantumTableIsTheReciprocals : Obligations.QuantumTableIsTheReciprocals :=
  ⟨fun _ hlo _ => qtab_isRN32 (by omega), by decide +kernel⟩

/-- The OR of R42 over any list of indices: bit j is that of MASK[j] where j is in the list. -/
theorem getLsbD_foldl_or_mask (m : Vector Word 32) (j : Fin 32) (ks : List (Fin 32)) (acc : Word) :
    (ks.foldl (fun acc k => acc ||| ((m[k] &&& 1#32) <<< k.val)) acc).getLsbD j.val =
      (acc.getLsbD j.val || (decide (j ∈ ks) && m[j].getLsbD 0)) := by
  induction ks generalizing acc with
  | nil => simp
  | cons k ks ih =>
    have hbit : ((m[k] &&& 1#32) <<< k.val).getLsbD j.val = (decide (j = k) && m[j].getLsbD 0) := by
      rw [BitVec.getLsbD_shiftLeft, BitVec.getLsbD_and, BitVec.getLsbD_one]
      grind
    rw [List.foldl_cons, ih, BitVec.getLsbD_or, hbit]
    simp [Bool.and_or_distrib_right, Bool.or_assoc]

theorem getLsbD_maskVecOf (m : Vector Word 32) (k : Fin 32) : (maskVecOf m).getLsbD k.val = m[k].getLsbD 0 := by
  rw [maskVecOf, getLsbD_foldl_or_mask]
  simp

/-- Settles O23: every index is in the OR of R42, and BSTART's snapshot is that OR of the mask registers. -/
theorem maskVecBitIsMaskValue : Obligations.MaskVecBitIsMaskValue :=
  ⟨getLsbD_maskVecOf, fun s => ⟨_, exec_eq (.bstart .audio) s, getLsbD_maskVecOf s.blk.p.mask⟩, rfl⟩

end Sys2Proof.Proofs

/-! The invariant of the reachable states (R40, R41, R43, R45, R46): RESET establishes it, every command keeps it. -/

namespace Sys2Proof.Proofs

open Sys2Proof.Machine Sys2Proof.Laws

/-! ### The parameter store writes legal values (R101, R102) -/

/-- A clamped word lies between its bounds, if they are in order and not negative as signed words. -/
theorem toNat_clampWord_bounds (data : Word) {lo hi : Nat} (hle : lo ≤ hi) (hhi : hi < 2 ^ 31) :
    lo ≤ (clampWord data lo hi).toNat ∧ (clampWord data lo hi).toNat ≤ hi := by
  unfold clampWord clampInt word
  rw [BitVec.toNat_ofInt, Int.emod_eq_of_lt] <;> omega

theorem bitLegal_clampWord (data : Word) : BitLegal (clampWord data 0 1) := by
  have h : (clampWord data 0 1).toNat ≤ 1 := (toNat_clampWord_bounds data (lo := 0) (hi := 1) (by decide) (by decide)).2
  rcases Nat.le_one_iff_eq_zero_or_eq_one.1 h with h0 | h1
  · exact Or.inl (BitVec.eq_of_toNat_eq h0)
  · exact Or.inr (BitVec.eq_of_toNat_eq h1)

/-- A word of magnitude at most one is a legal mix value (R34). -/
theorem mixLegal_of_mag_le_one {m : Word} (h : mag m ≤ 2 ^ 149) : MixLegal m := by
  obtain ⟨k, n, hk, hn, hword, hmag⟩ := mag_eq_quanta m
  rw [hmag] at h
  have hbound : k * 2 ^ 23 + n ≤ 126 * 2 ^ 23 + 2 ^ 23 := by
    obtain hlt | rfl | hgt := lt_trichotomy k 126
    · omega
    · have hn23 : n ≤ 2 ^ 23 := Nat.le_of_mul_le_mul_right (by rwa [← pow_add]) (Nat.two_pow_pos 126)
      exact Nat.add_le_add_left hn23 _
    · have hbig : 2 ^ 23 * 2 ^ 127 ≤ n * 2 ^ k := Nat.mul_le_mul (by omega) (Nat.pow_le_pow_right (by decide) hgt)
      omega
  have := m.isLt
  omega

/-- What ClampMix stores is a legal mix value. -/
theorem mixLegal_of_clampMix {d v : Word} (h : clampMix d = some v) : MixLegal v := by
  unfold clampMix at h
  split at h
  · cases h
  split at h
  · cases h; decide
  split at h
  · cases h; decide
  · rename_i hpos hneg
    cases h
    apply mixLegal_of_mag_le_one
    cases hs : signBit d
    · simp only [hs, Bool.not_false, Bool.true_and, Bool.or_eq_true, decide_eq_true_eq] at hpos
      omega
    · simp only [hs, Bool.true_and, Bool.or_eq_true, decide_eq_true_eq] at hneg
      omega

/-- R40: a write leaves legal registers, whatever the id and the word. -/
theorem write_legal {p : Params} (h : p.Legal) (pid : BitVec 6) (data : Word) : (p.write pid data).Legal := by
  obtain ⟨hmix, hds, hbd, hcm, hme, hmask⟩ := h
  unfold Params.write
  split
  · split
    · exact ⟨mixLegal_of_clampMix ‹_›, hds, hbd, hcm, hme, hmask⟩
    · exact ⟨hmix, hds, hbd, hcm, hme, hmask⟩
  · exact ⟨hmix, toNat_clampWord_bounds data (by decide) (by decide), hbd, hcm, hme, hmask⟩
  · exact ⟨hmix, hds, toNat_clampWord_bounds data (by decide) (by decide), hcm, hme, hmask⟩
  · exact ⟨hmix, hds, hbd, bitLegal_clampWord data, hme, hmask⟩
  · exact ⟨hmix, hds, hbd, hcm, bitLegal_clampWord data, hmask⟩
  · refine ⟨hmix, hds, hbd, hcm, hme, fun j => ?_⟩
    simp only [Fin.getElem_fin, Vector.getElem_set]
    split
    · exact bitLegal_clampWord data
    · exact hmask j
  · exact ⟨hmix, hds, hbd, hcm, hme, hmask⟩

/-! ### The snapshot, the phases and the cache -/

theorem snapshot_legal {p : Params} (h : p.Legal) : p.snapshot.Legal := by
  obtain ⟨hmix, hds, hbd, hcm, hme, -⟩ := h
  exact ⟨hmix, hds, hbd, hcm, hme⟩

theorem phasesInRange_iff (b : Block) : b.PhasesInRange ↔ ∀ c, (b.chan c).ph.toNat < b.cfg.dsFactor.toNat :=
  ⟨fun ⟨hl, hr⟩ c => by cases c <;> assumption, fun h => ⟨h .left, h .right⟩⟩

/-- R121: the 4 bits of a phase hold every count below a legal factor. -/
theorem toNat_advance_ph (v : ChannelState) {n : Nat} (h0 : 0 < n) (h16 : n ≤ 16) :
    (v.advance n).ph.toNat = (v.ph.toNat + 1) % n := by
  have hlt : (v.ph.toNat + 1) % n < 2 ^ 4 := (Nat.mod_lt _ h0).trans_le h16
  rw [ChannelState.advance, BitVec.toNat_ofNat, Nat.mod_eq_of_lt hlt]

theorem smp_phasesInRange {b : Block} (hcfg : b.cfg.Legal) (h : b.PhasesInRange) (c : Channel) (x : Word) :
    (b.smp c x).1.PhasesInRange := by
  obtain ⟨-, ⟨hds1, hds16⟩, -⟩ := hcfg
  rw [phasesInRange_iff] at h ⊢
  intro d
  rw [smp_cfg]
  by_cases hd : d = c
  · rw [hd, smp_chan_self, toNat_advance_ph _ hds1 hds16]
    exact Nat.mod_lt _ hds1
  · rw [smp_chan_other _ _ hd]
    exact h d

/-- Filling a coherent cache leaves in it the quantum asked for, whether it was there or not. -/
theorem fillCache_qcQ {b : Block} (h : b.CacheCoherent) {n : Nat} (hn : n ≠ 0) : (b.fillCache n).qcQ = qtab n := by
  unfold Block.fillCache
  split
  · rfl
  · rename_i heq
    obtain rfl := not_not.1 heq
    obtain h0 | ⟨-, hq⟩ := h
    · exact absurd h0 hn
    · exact hq

theorem fillCache_coherent {b : Block} (h : b.CacheCoherent) {n : Nat} (hn : 2 ≤ n ∧ n ≤ 24) :
    (b.fillCache n).CacheCoherent := by
  right
  rw [fillCache_qcBd]
  exact ⟨hn, fillCache_qcQ h (by omega)⟩

theorem crush_quantize {b : Block} (h : b.cfg.crushMethod = 0#32) (x : Word) :
    b.crush x = b.quantize x b.cfg.bitDepth.toNat := if_pos h

theorem crush_truncate {b : Block} (h : b.cfg.crushMethod ≠ 0#32) (x : Word) :
    b.crush x = (b, truncate x b.cfg.bitDepth.toNat) := if_neg h

theorem crush_coherent {b : Block} (hcfg : b.cfg.Legal) (h : b.CacheCoherent) (x : Word) :
    (b.crush x).1.CacheCoherent := by
  obtain ⟨-, -, hbd, -⟩ := hcfg
  by_cases hcm : b.cfg.crushMethod = 0#32
  · rw [crush_quantize hcm]
    exact fillCache_coherent h hbd
  · rw [crush_truncate hcm]
    exact h

/-! ### Every command keeps the invariant -/

theorem pwr_inv {b : Block} (h : b.Inv) (pid : BitVec 6) (data : Word) : (b.pwr pid data).1.Inv := by
  obtain ⟨hp, hrest⟩ := h
  exact ⟨write_legal hp pid data, hrest⟩

@[simp] theorem bstart_wg (b : Block) : b.bstart.1.wg = wetGain b.p.mix := rfl
@[simp] theorem bstart_dg (b : Block) : b.bstart.1.dg = dryGain b.p.mix := rfl
@[simp] theorem bstart_ph (b : Block) (c : Channel) : (b.bstart.1.chan c).ph = 0#4 := clearPhases_ph _ c
@[simp] theorem bstart_held (b : Block) (c : Channel) : (b.bstart.1.chan c).held = (b.chan c).held := by
  cases c <;> rfl

theorem bstart_phasesInRange {b : Block} (h : b.p.Legal) : b.bstart.1.PhasesInRange := by
  obtain ⟨-, ⟨hds1, -⟩, -⟩ := h
  rw [phasesInRange_iff]
  intro c
  rw [bstart_ph]
  exact hds1

theorem bstart_inv {b : Block} (h : b.Inv) : b.bstart.1.Inv := by
  obtain ⟨hp, -, -, -, hcache⟩ := h
  exact ⟨hp, snapshot_legal hp, ⟨bstart_wg b, bstart_dg b⟩, bstart_phasesInRange hp, hcache⟩

theorem smp_inv {b : Block} (h : b.Inv) (c : Channel) (x : Word) : (b.smp c x).1.Inv := by
  obtain ⟨hp, hcfg, hgains, hph, hcache⟩ := h
  refine ⟨?_, ?_, ?_, smp_phasesInRange hcfg hph c x, ?_⟩
  · rwa [smp_p]
  · rwa [smp_cfg]
  · rwa [Block.GainsOfCfg, smp_wg, smp_dg, smp_cfg]
  · rw [Block.CacheCoherent, smp_qcBd, smp_qcQ]
    exact crush_coherent hcfg hcache x

theorem effect_inv {b : Block} (h : b.Inv) (i : Instr) : (b.effect i).1.Inv := by
  cases i with
  | nop => exact h
  | pwr _ pid data => exact pwr_inv h pid data
  | prd => exact h
  | bstart => exact bstart_inv h
  | smp _ c x => exact smp_inv h c x

theorem perform_inv {b : Block} (h : b.Inv) (t : Transaction) : (b.perform t).1.Inv := by
  unfold Block.perform
  split
  · exact effect_inv h _
  · exact h

/-- Settles O57: a step leaves S as it was or performs one transaction on it, and every command keeps the invariant. -/
theorem everyStepKeepsTheStateLegal : Obligations.EveryStepKeepsTheStateLegal := by
  intro s t h hstep
  obtain ⟨-, rfl⟩ | ⟨tr, -, rfl⟩ := step_cases hstep
  · rwa [fetch_blk]
  · rw [commit_blk]
    exact perform_inv h tr

/-! ### RESET -/

/-- R220: RESET runs the gains of its mix value. -/
theorem reset_gainsOfCfg : Block.reset.GainsOfCfg := by decide +kernel

theorem reset_params_legal : Params.reset.Legal := by decide +kernel

/-- Settles O55: R51's list against `Block.reset`, field by field. -/
theorem resetWritesEveryElement : Obligations.ResetWritesEveryElement := by
  refine ⟨rfl, rfl, rfl, rfl, rfl, fun k => ?_, rfl, rfl, rfl, fun c => ?_, rfl, rfl⟩
  · exact Vector.getElem_replicate k.isLt
  · cases c <;> exact ⟨rfl, rfl⟩

/-- Settles O56: CFG is the snapshot of P, the phases are 0 and the cache is empty. -/
theorem resetStateIsLegal : Obligations.ResetStateIsLegal := by
  have hcfg : Block.reset.cfg.Legal := snapshot_legal reset_params_legal
  exact ⟨reset_params_legal, hcfg, reset_gainsOfCfg, ⟨Nat.one_pos, Nat.one_pos⟩, Or.inl rfl⟩

end Sys2Proof.Proofs

/-! Which command can change which element of S (R30, R41, R43 to R46, R63). -/

namespace Sys2Proof.Proofs

open Sys2Proof.Machine Sys2Proof.Laws

/-- What a meaning can do: a command that is not legal on its port leaves S, a legal one has its effect. -/
theorem exec_blk_cases {i : Instr} {s t : State} (h : exec i s = .next t) :
    t.blk = s.blk ∨ (i.wellFormed = true ∧ t.blk = (s.blk.effect i).1) := by
  rw [exec_eq] at h
  obtain rfl := Host.Outcome.next.inj h
  cases i.wellFormed
  · exact Or.inl rfl
  · exact Or.inr ⟨rfl, rfl⟩

/-- R120: a channel off phase 0 keeps what it holds. -/
theorem hold_held (v : ChannelState) (y : Word) : (v.hold y).held = if v.ph = 0#4 then y else v.held := by
  unfold ChannelState.hold
  split <;> rfl

/-- The elements that differ between `b` and `b'` are ones that `i` may write. -/
def WrittenBy (i : Instr) (b b' : Block) : Prop :=
  (b'.p ≠ b.p → ∃ pid d, i = .pwr .control pid d) ∧
  (b'.cfg ≠ b.cfg ∨ b'.wg ≠ b.wg ∨ b'.dg ≠ b.dg → i = .bstart .audio) ∧
  (∀ c, (b'.chan c).held ≠ (b.chan c).held → (b.chan c).ph = 0#4 ∧ ∃ x, i = .smp .audio c x) ∧
  (∀ c, (b'.chan c).ph ≠ (b.chan c).ph → i = .bstart .audio ∨ ∃ x, i = .smp .audio c x) ∧
  (b'.qcBd ≠ b.qcBd ∨ b'.qcQ ≠ b.qcQ → b.cfg.crushMethod = 0#32 ∧ ∃ c x, i = .smp .audio c x)

theorem writtenBy_self (i : Instr) (b : Block) : WrittenBy i b b := by simp [WrittenBy]

theorem writtenBy_pwr (b : Block) (pid : BitVec 6) (data : Word) :
    WrittenBy (.pwr .control pid data) b (b.pwr pid data).1 := by
  obtain ⟨-, hrest⟩ := writtenBy_self (.pwr .control pid data) b
  exact ⟨fun _ => ⟨pid, data, rfl⟩, hrest⟩

theorem writtenBy_bstart (b : Block) : WrittenBy (.bstart .audio) b b.bstart.1 := by
  refine ⟨fun h => absurd rfl h, fun _ => rfl, fun c h => absurd (bstart_held b c) h,
    fun _ _ => Or.inl rfl, fun h => ?_⟩
  exact (h.elim (· rfl) (· rfl)).elim

theorem writtenBy_smp (b : Block) (c : Channel) (x : Word) : WrittenBy (.smp .audio c x) b (b.smp c x).1 := by
  refine ⟨by simp, by simp, fun d h => ?_, fun d h => ?_, fun h => ⟨?_, c, x, rfl⟩⟩
  · by_cases hd : d = c
    · subst hd
      rw [smp_chan_self, advance_held, hold_held] at h
      exact ⟨by_contra fun hph => h (if_neg hph), x, rfl⟩
    · exact absurd (by rw [smp_chan_other _ _ hd]) h
  · by_cases hd : d = c
    · exact Or.inr ⟨x, by rw [hd]⟩
    · exact absurd (by rw [smp_chan_other _ _ hd]) h
  · by_contra hcm
    rw [smp_qcBd, smp_qcQ, crush_truncate hcm] at h
    exact h.elim (· rfl) (· rfl)

theorem writtenBy_effect {i : Instr} (hw : i.wellFormed = true) (b : Block) : WrittenBy i b (b.effect i).1 := by
  cases i with
  | nop => exact writtenBy_self _ b
  | pwr port pid data =>
    obtain rfl : port = .control := by simpa [Instr.wellFormed] using hw
    exact writtenBy_pwr b pid data
  | prd => exact writtenBy_self _ b
  | bstart port =>
    obtain rfl : port = .audio := by simpa [Instr.wellFormed] using hw
    exact writtenBy_bstart b
  | smp port c x =>
    obtain rfl : port = .audio := by simpa [Instr.wellFormed] using hw
    exact writtenBy_smp b c x

/-- Settles O58: an ignored command writes nothing, and a legal one only what its effect does. -/
theorem eachElementHasItsWriter : Obligations.EachElementHasItsWriter := by
  intro i s t h
  change WrittenBy i s.blk t.blk
  obtain hb | ⟨hw, hb⟩ := exec_blk_cases h
  · rw [hb]
    exact writtenBy_self i s.blk
  · rw [hb]
    exact writtenBy_effect hw s.blk

end Sys2Proof.Proofs

/-! What reaches an output (R44, R123, R132): two blocks that agree on all but the held words of channels at phase 0 and the
cache answer every stream alike. -/

namespace Sys2Proof.Proofs

open Sys2Proof.Machine Sys2Proof.Laws

/-- The Crush and Bitmask stages as a function of CFG alone (R130, R150). -/
def shapeWord (cfg : Snapshot) (x : Word) : Word :=
  bitmask cfg (if cfg.crushMethod = 0#32 then quantizeBy (qtab cfg.bitDepth.toNat) x else truncate x cfg.bitDepth.toNat)

/-- R132: a coherent cache does not show in the shaped sample. -/
theorem shape_eq_shapeWord {b : Block} (hcfg : b.cfg.Legal) (h : b.CacheCoherent) (x : Word) :
    (b.shape x).2 = shapeWord b.cfg x := by
  obtain ⟨-, -, ⟨hbd2, -⟩, -⟩ := hcfg
  rw [Block.shape, crush_cfg, shapeWord]
  by_cases hcm : b.cfg.crushMethod = 0#32
  · rw [crush_quantize hcm, if_pos hcm, Block.quantize, fillCache_qcQ h (by omega)]
  · rw [crush_truncate hcm, if_neg hcm]

/-- Two blocks alike in all that an output can depend on: P, CFG, the gains, the phases, and what a channel holds while
its phase is not 0. -/
structure Agree (b b' : Block) : Prop where
  p : b.p = b'.p
  cfg : b.cfg = b'.cfg
  wg : b.wg = b'.wg
  dg : b.dg = b'.dg
  ph : ∀ c, (b.chan c).ph = (b'.chan c).ph
  held : ∀ c, (b.chan c).ph ≠ 0#4 → (b.chan c).held = (b'.chan c).held

theorem agree_pwr {b b' : Block} (h : Agree b b') (pid : BitVec 6) (data : Word) :
    Agree (b.pwr pid data).1 (b'.pwr pid data).1 where
  p := congrArg (·.write pid data) h.p
  cfg := h.cfg
  wg := h.wg
  dg := h.dg
  ph := h.ph
  held := h.held

/-- A BSTART leaves nothing but P to agree on. -/
theorem agree_bstart {b b' : Block} (h : b.p = b'.p) : Agree b.bstart.1 b'.bstart.1 where
  p := h
  cfg := congrArg Params.snapshot h
  wg := by rw [bstart_wg, bstart_wg, h]
  dg := by rw [bstart_dg, bstart_dg, h]
  ph c := by rw [bstart_ph, bstart_ph]
  held c hph := absurd (bstart_ph b c) hph

section
variable {b b' : Block} (hb : b.Inv) (hb' : b'.Inv) (h : Agree b b')
include hb hb' h

/-- At phase 0 both channels take the shaped sample, at another phase both keep one word. -/
theorem hold_held_of_agree (c : Channel) (x : Word) :
    ((b.chan c).hold (b.shape x).2).held = ((b'.chan c).hold (b'.shape x).2).held := by
  obtain ⟨-, hcfg, -, -, hcache⟩ := hb
  obtain ⟨-, hcfg', -, -, hcache'⟩ := hb'
  rw [hold_held, hold_held, shape_eq_shapeWord hcfg hcache, shape_eq_shapeWord hcfg' hcache', ← h.ph c, h.cfg]
  split
  · rfl
  · exact h.held c ‹_›

theorem agree_smp (c : Channel) (x : Word) : Agree (b.smp c x).1 (b'.smp c x).1 where
  p := by rw [smp_p, smp_p, h.p]
  cfg := by rw [smp_cfg, smp_cfg, h.cfg]
  wg := by rw [smp_wg, smp_wg, h.wg]
  dg := by rw [smp_dg, smp_dg, h.dg]
  ph d := by
    by_cases hd : d = c
    · rw [hd, smp_chan_self, smp_chan_self, ChannelState.advance, ChannelState.advance, hold_ph, hold_ph, h.ph c, h.cfg]
    · rw [smp_chan_other _ _ hd, smp_chan_other _ _ hd, h.ph d]
  held d hph := by
    by_cases hd : d = c
    · rw [hd, smp_chan_self, smp_chan_self, advance_held, advance_held, hold_held_of_agree hb hb' h]
    · rw [smp_chan_other _ _ hd] at hph ⊢
      rw [smp_chan_other _ _ hd, h.held d hph]

theorem smp_resp_of_agree (c : Channel) (x : Word) : (b.smp c x).2 = (b'.smp c x).2 := by
  rw [smp_resp, smp_resp, h.wg, h.dg, hold_held_of_agree hb hb' h]

/-- One command keeps the agreement and answers alike. -/
theorem effect_of_agree (i : Instr) :
    Agree (b.effect i).1 (b'.effect i).1 ∧ (b.effect i).2 = (b'.effect i).2 := by
  cases i with
  | nop => exact ⟨h, rfl⟩
  | pwr _ pid data => exact ⟨agree_pwr h pid data, rfl⟩
  | prd _ pid => exact ⟨h, congrArg (·.read pid) h.p⟩
  | bstart => exact ⟨agree_bstart h.p, rfl⟩
  | smp _ c x => exact ⟨agree_smp hb hb' h c x, smp_resp_of_agree hb hb' h c x⟩

theorem perform_of_agree (t : Transaction) :
    Agree (b.perform t).1 (b'.perform t).1 ∧ (b.perform t).2 = (b'.perform t).2 := by
  unfold Block.perform
  split
  · exact effect_of_agree hb hb' h _
  · exact ⟨h, rfl⟩

end

/-- Blocks that agree answer a stream alike. -/
theorem serve_of_agree (ts : List Transaction) {b b' : Block} (hb : b.Inv) (hb' : b'.Inv) (h : Agree b b') :
    (b.serve ts).2 = (b'.serve ts).2 := by
  induction ts generalizing b b' with
  | nil => rfl
  | cons t ts ih =>
    obtain ⟨hnext, hresp⟩ := perform_of_agree hb hb' h t
    exact congrArg₂ List.cons hresp (ih (perform_inv hb t) (perform_inv hb' t) hnext)

theorem perform_bstart (b : Block) : b.perform (encode (.bstart .audio)) = b.bstart := by
  have hdecode : decode (encode (.bstart .audio)) = .command (.bstart .audio) := by decide
  rw [Block.perform, hdecode]
  rfl

/-- Settles O52: both blocks answer 0 to the BSTART, and agree from there on. -/
theorem outputsAfterBstartDependOnParameters : Obligations.OutputsAfterBstartDependOnParameters := by
  intro b b' ts hb hb' hp
  rw [Block.serve, Block.serve, perform_bstart, perform_bstart]
  exact congrArg₂ List.cons rfl (serve_of_agree ts (bstart_inv hb) (bstart_inv hb') (agree_bstart hp))

end Sys2Proof.Proofs

/-! Proofs of the statements of 20_memory.md. This part: what one step does with the transaction that arrives, and a run
on the streams as the serving of their total order (R67, R80). -/

namespace Sys2Proof.Proofs

open Sys2Proof.Machine Sys2Proof.Laws

/-! ### One arrival -/

/-- The head request of the scheduled port arrives, and leaves its stream together with its entry of SCHEDULE. -/
theorem fetch_of_arrival {s : State} {port : Port} {rest : List Port} {r : Request} {q : List Request}
    (hsched : s.schedule = port :: rest) (hstream : s.stream port = r :: q) :
    s.fetch = (some ⟨port, r.cmd, r.data⟩, { s.setStream port q with schedule := rest }) := by
  simp only [State.fetch, hsched, hstream]

theorem step_of_fetch_command {s s' : State} {t : Transaction} {i : Instr} (hfetch : s.fetch = (some t, s'))
    (hdecode : decode t = .command i) : step s = exec i s' := by
  simp only [step, hfetch, hdecode]

theorem step_of_fetch_illegal {s s' : State} {t : Transaction} {why : Illegal} (hfetch : s.fetch = (some t, s'))
    (hdecode : decode t = .illegal why) : step s = .next s'.ignoreCommand := by
  simp only [step, hfetch, hdecode]

/-- R80: whatever arrives, legal or not, the step ends with what `perform` makes of S. -/
theorem step_of_fetch {s s' : State} {t : Transaction} (hfetch : s.fetch = (some t, s')) :
    step s = .next (s'.commit (s'.blk.perform t)) := by
  cases hdecode : decode t with
  | command i =>
    rw [step_of_fetch_command hfetch hdecode, exec_eq, decode_wellFormed hdecode, commitIf_true, Block.perform, hdecode]
  | illegal why => rw [step_of_fetch_illegal hfetch hdecode, Block.perform, hdecode, State.ignoreCommand]

/-- Settles O8: the scheduled port's head request is the one fetched. -/
theorem stepRunsTheArrivingCommand : Obligations.StepRunsTheArrivingCommand := by
  intro s port rest r q i hsched hstream hdecode
  exact step_of_fetch_command (fetch_of_arrival hsched hstream) hdecode

/-! ### A run on issued transactions -/

/-- The first and the last of the arrivals do not meet: one goes to the heads of the lists, the other to their ends. -/
theorem issue_offer (s : State) (t u : Transaction) : (s.offer t).issue u = (s.issue u).offer t := by
  obtain ⟨tport, tcmd, tdata⟩ := t
  obtain ⟨uport, ucmd, udata⟩ := u
  cases tport <;> cases uport <;> rfl

theorem issueAll_offer (ts : List Transaction) (s : State) (t : Transaction) :
    (s.offer t).issueAll ts = (s.issueAll ts).offer t := by
  induction ts generalizing s with
  | nil => rfl
  | cons u us ih => rw [State.issueAll, issue_offer, ih, State.issueAll]

/-- With nothing waiting, the transaction that arrives after all others is the very next to arrive. -/
theorem issue_eq_offer {s : State} (hsched : s.schedule = []) (hcontrol : s.control = []) (haudio : s.audio = [])
    (t : Transaction) : s.issue t = s.offer t := by
  obtain ⟨port, cmd, data⟩ := t
  cases port <;> simp [State.issue, State.offer, State.setStream, State.stream, hsched, hcontrol, haudio]

/-- Issuing transactions touches only the streams and SCHEDULE, so it may come before or after a command's end. -/
theorem commit_issueAll (ts : List Transaction) (s : State) (r : Block × Word) :
    (s.issueAll ts).commit r = (s.commit r).issueAll ts := by
  induction ts generalizing s with
  | nil => rfl
  | cons u us ih =>
    have hissue : (s.issue u).commit r = (s.commit r).issue u := by
      obtain ⟨port, cmd, data⟩ := u
      cases port <;> rfl
    rw [State.issueAll, ih, hissue, State.issueAll]

@[simp] theorem issueAll_blk (ts : List Transaction) (s : State) : (s.issueAll ts).blk = s.blk := by
  induction ts generalizing s with
  | nil => rfl
  | cons u us ih => rw [State.issueAll, ih, State.issue, setStream_blk]

/-- With nothing else waiting, a step on an issued list performs its first transaction and leaves the others issued. -/
theorem step_issueAll_cons {s : State} (hsched : s.schedule = []) (hcontrol : s.control = []) (haudio : s.audio = [])
    (t : Transaction) (ts : List Transaction) :
    step (s.issueAll (t :: ts)) = .next ((s.commit (s.blk.perform t)).issueAll ts) := by
  have hfetch : (s.issueAll (t :: ts)).fetch = (some t, s.issueAll ts) := by
    rw [State.issueAll, issue_eq_offer hsched hcontrol haudio, issueAll_offer, fetch_offer]
  rw [step_of_fetch hfetch, issueAll_blk, commit_issueAll]

/-- A run whose first step answers goes on from the state it answers. -/
theorem core_run_succ {s s' : State} (h : step s = .next s') (k : Nat) :
    Host.Core.run Sys2Proof.core (k + 1) s = Host.Core.run Sys2Proof.core k s' := by
  have hcore : Sys2Proof.core.step s = .next s' := h
  simp only [Host.Core.run, hcore]

/-- Settles O14, by induction on the issued list: each step performs its head and leaves the tail issued. -/
theorem runServesTheScheduledOrder : Obligations.RunServesTheScheduledOrder := by
  intro s ts hsched hcontrol haudio
  induction ts generalizing s with
  | nil => exact ⟨s, rfl, rfl, rfl, hsched, hcontrol, haudio⟩
  | cons t ts ih =>
    obtain ⟨u, hrun, hblk, hresp, hdone⟩ := ih (s.commit (s.blk.perform t)) hsched hcontrol haudio
    refine ⟨u, ?_, hblk, ?_, hdone⟩
    · rw [List.length_cons, core_run_succ (step_issueAll_cons hsched hcontrol haudio t ts), hrun]
    · rw [hresp, commit_blk, commit_resp, Block.serve, List.getLastD_cons]

end Sys2Proof.Proofs

/-! What a parameter write leaves unchanged (R50, R63, R100). -/

namespace Sys2Proof.Proofs

open Sys2Proof.Machine Sys2Proof.Laws

/-- The id of a parameter register (R34 to R39); the reserved ids have none, and get one of theirs. -/
def pidOfParam : ParamId → BitVec 6
  | .mix => 0x00#6
  | .dsFactor => 0x01#6
  | .bitDepth => 0x02#6
  | .crushMethod => 0x03#6
  | .masksEnabled => 0x04#6
  | .mask k => maskPid k
  | .reserved => 0x05#6

/-- R50: an id that names a register is the id of that register. -/
theorem pidOfParam_paramId (pid : BitVec 6) : paramId pid ≠ .reserved → pidOfParam (paramId pid) = pid :=
  FitsRow.forall_pid (P := fun pid => paramId pid ≠ .reserved → pidOfParam (paramId pid) = pid) (by decide) pid

/-- R50: no two ids name one register. -/
theorem paramId_ne {pid pid' : BitVec 6} (hne : pid' ≠ pid) (hreg : paramId pid ≠ .reserved) :
    paramId pid' ≠ paramId pid := by
  intro heq
  apply hne
  rw [← pidOfParam_paramId pid' (heq ▸ hreg), heq, pidOfParam_paramId pid hreg]

/-- The register that an id names; a reserved id names none and reads as 0 (R88). -/
def registerOf (p : Params) : ParamId → Word
  | .mix => p.mix
  | .dsFactor => p.dsFactor
  | .bitDepth => p.bitDepth
  | .crushMethod => p.crushMethod
  | .masksEnabled => p.masksEnabled
  | .mask k => p.mask[k]
  | .reserved => 0x00000000#32

theorem read_eq_registerOf (p : Params) (pid : BitVec 6) : p.read pid = registerOf p (paramId pid) := by
  unfold Params.read registerOf
  cases paramId pid <;> rfl

/-- R100: a write leaves every register but the one its id names. -/
theorem registerOf_write_other (p : Params) {pid : BitVec 6} {reg : ParamId} (hne : reg ≠ paramId pid) (data : Word) :
    registerOf (p.write pid data) reg = registerOf p reg := by
  unfold Params.write
  generalize paramId pid = written at hne
  cases written with
  | mix =>
    cases reg with
    | mix => exact absurd rfl hne
    | _ => cases clampMix data <;> rfl
  | dsFactor | bitDepth | crushMethod | masksEnabled => cases reg <;> trivial
  | mask k =>
    cases reg with
    | mask j =>
      have hkj : k.val ≠ j.val := fun heq => hne (congrArg ParamId.mask (Fin.ext heq.symm))
      exact Vector.getElem_set_ne k.isLt j.isLt hkj
    | _ => rfl
  | reserved => rfl

theorem write_reserved (p : Params) {pid : BitVec 6} (h : paramId pid = .reserved) (data : Word) :
    p.write pid data = p := by
  simp only [Params.write, h]

/-- R63: a write of one id leaves what every other id reads. -/
theorem read_write_other (p : Params) {pid pid' : BitVec 6} (hne : pid' ≠ pid) (data : Word) :
    (p.write pid data).read pid' = p.read pid' := by
  by_cases hreg : paramId pid = .reserved
  · rw [write_reserved p hreg]
  · rw [read_eq_registerOf, read_eq_registerOf, registerOf_write_other p (paramId_ne hne hreg)]

/-- Settles O20: a PWR is ignored on Audio, and on Control it is a write of P that answers 0. -/
theorem pwrTouchesOneRegister : Obligations.PwrTouchesOneRegister := by
  intro s t port pid pid' d h
  rw [exec_eq] at h
  obtain rfl := Host.Outcome.next.inj h
  cases port with
  | control => exact ⟨fun hne => read_write_other s.blk.p hne d, rfl⟩
  | audio => exact ⟨fun _ => rfl, rfl⟩

end Sys2Proof.Proofs

/-! Why commands inside a block are invisible (R68, R224): an SMP reads no parameter register, and no other command but
BSTART writes anything else. -/

namespace Sys2Proof.Proofs

open Sys2Proof.Machine

/-- The block with its parameter registers replaced. -/
def withParams (b : Block) (p : Params) : Block := { b with p := p }

theorem setChan_withParams (b : Block) (p : Params) (c : Channel) (v : ChannelState) :
    (withParams b p).setChan c v = withParams (b.setChan c v) p := by
  cases c <;> rfl

@[simp] theorem withParams_chan (b : Block) (p : Params) (c : Channel) : (withParams b p).chan c = b.chan c := by
  cases c <;> rfl

theorem fillCache_withParams (b : Block) (p : Params) (n : Nat) :
    (withParams b p).fillCache n = withParams (b.fillCache n) p := by
  unfold Block.fillCache withParams
  split <;> rfl

theorem crush_withParams (b : Block) (p : Params) (x : Word) :
    (withParams b p).crush x = (withParams (b.crush x).1 p, (b.crush x).2) := by
  by_cases hcm : b.cfg.crushMethod = 0#32
  · rw [crush_quantize hcm, crush_quantize (b := withParams b p) hcm, Block.quantize, fillCache_withParams]
    rfl
  · rw [crush_truncate hcm, crush_truncate (b := withParams b p) hcm]
    rfl

/-- R68: an SMP neither reads nor writes the parameter registers. -/
theorem smp_withParams (b : Block) (p : Params) (c : Channel) (x : Word) :
    (withParams b p).smp c x = (withParams (b.smp c x).1 p, (b.smp c x).2) := by
  simp only [Block.smp, Block.shape, Block.decimate, Block.advancePhase, crush_withParams, setChan_withParams,
    withParams_chan]
  rfl

theorem isSmp_iff (t : Transaction) : isSmp t = true ↔ ∃ port c x, decode t = .command (.smp port c x) := by
  unfold isSmp isSmpOf
  split
  · rename_i port c x hdecode
    cases c <;> simp [hdecode]
  · rename_i hother
    simpa using fun port c x hdecode => hother port c x hdecode

/-- An SMP answers alike whatever P holds, and leaves P. -/
theorem perform_withParams_of_isSmp {t : Transaction} (h : isSmp t = true) (b : Block) (p : Params) :
    (withParams b p).perform t = (withParams (b.perform t).1 p, (b.perform t).2) := by
  obtain ⟨port, c, x, hdecode⟩ := (isSmp_iff t).1 h
  simp only [Block.perform, hdecode]
  exact smp_withParams b p c x

/-- R68: a command other than SMP and BSTART, or an illegal one, writes at most P. -/
theorem perform_eq_withParams {t : Transaction} (hsmp : isSmp t = false) (hbstart : isBstart t = false) (b : Block) :
    ∃ p, (b.perform t).1 = withParams b p := by
  unfold Block.perform
  cases hdecode : decode t with
  | illegal => exact ⟨b.p, rfl⟩
  | command i =>
    cases i with
    | nop | prd => exact ⟨b.p, rfl⟩
    | pwr _ pid data => exact ⟨b.p.write pid data, rfl⟩
    | bstart => simp [isBstart, hdecode] at hbstart
    | smp port c x => exact absurd ((isSmp_iff t).2 ⟨port, c, x, hdecode⟩) (by simp [hsmp])

/-- The RESP words that a list of answers gives to the SMPs of a stream. -/
def smpAnswers (ts : List Transaction) (resps : List Word) : List Word :=
  ((ts.zip resps).filter fun p => isSmp p.1).map Prod.snd

/-- The SMPs of a stream without BSTART are answered as if served alone, and from any other parameter registers. -/
theorem smpAnswers_serve_withParams {ts : List Transaction} (hts : ∀ t ∈ ts, isBstart t = false) (b : Block)
    (p : Params) : smpAnswers ts ((withParams b p).serve ts).2 = (b.serve (ts.filter isSmp)).2 := by
  induction ts generalizing b p with
  | nil => rfl
  | cons t ts ih =>
    obtain ⟨ht, hts⟩ := List.forall_mem_cons.1 hts
    cases hsmp : isSmp t with
    | true =>
      rw [Block.serve, perform_withParams_of_isSmp hsmp, List.filter_cons_of_pos hsmp, Block.serve, ← ih hts _ p]
      simp [smpAnswers, hsmp]
    | false =>
      obtain ⟨q, hq⟩ := perform_eq_withParams hsmp ht (withParams b p)
      rw [Block.serve, hq, List.filter_cons_of_neg (by simp [hsmp]), ← ih hts b q]
      simp [smpAnswers, hsmp, withParams]

/-- Settles O51: a block is itself with its own parameter registers. -/
theorem writesInsideABlockAreInvisible : Obligations.WritesInsideABlockAreInvisible :=
  fun b _ _ hts => smpAnswers_serve_withParams hts b b.p

end Sys2Proof.Proofs

/-! Proofs of the statements of 30_encoding.md. This part: the five fields of a CMD word (R81), the fields of each command's
own word (R82), which words a row of the opcode table accepts, and what the legal words keep to. -/

namespace Sys2Proof.Proofs

open Sys2Proof.Machine Sys2Proof.Laws

/-! ### The fields -/

/-- R81: the five fields are the whole CMD word. -/
theorem cmd_ext {a b : Word} (hopc : opcOf a = opcOf b) (hhi : rsvHiOf a = rsvHiOf b) (hch : chBitOf a = chBitOf b)
    (hlo : rsvLoOf a = rsvLoOf b) (hpid : pidOf a = pidOf b) : a = b := by
  simp only [opcOf, rsvHiOf, chBitOf, rsvLoOf, pidOf, ← BitVec.toNat_inj, BitVec.extractLsb'_toNat,
    Nat.shiftRight_eq_div_pow] at *
  omega

/-- OPC of a command's word (R82). -/
@[simp] def opcField : Instr → BitVec 4
  | .nop _ => 0x0#4
  | .pwr _ _ _ => 0x1#4
  | .prd _ _ => 0x2#4
  | .bstart _ => 0x3#4
  | .smp _ _ _ => 0x4#4

/-- CH of a command's word: only SMP names a channel (R82). -/
@[simp] def chField : Instr → BitVec 1
  | .smp _ ch _ => ch.bit
  | _ => 0#1

/-- PID of a command's word: only PWR and PRD name a parameter (R82). -/
@[simp] def pidField : Instr → BitVec 6
  | .pwr _ pid _ => pid
  | .prd _ pid => pid
  | _ => 0#6

/-- A CMD word has the fields of a command's own word; both reserved fields of that are 0. -/
abbrev HasFieldsOf (i : Instr) (cmd : Word) : Prop :=
  opcOf cmd = opcField i ∧ rsvHiOf cmd = 0#19 ∧ chBitOf cmd = chField i ∧ rsvLoOf cmd = 0#2 ∧ pidOf cmd = pidField i

/-- R82: the word that the encoder builds for a command has that command's fields. -/
theorem hasFieldsOf_cmdOf (i : Instr) : HasFieldsOf i (cmdOf i) := by
  have hnop : HasFieldsOf (.nop .control) 0x00000000#32 := by decide
  have hpwr : ∀ pid, HasFieldsOf (.pwr .control pid 0#32) (0x10000000#32 ||| pid.setWidth 32) :=
    FitsRow.forall_pid (by decide)
  have hprd : ∀ pid, HasFieldsOf (.prd .control pid) (0x20000000#32 ||| pid.setWidth 32) :=
    FitsRow.forall_pid (by decide)
  have hbstart : HasFieldsOf (.bstart .audio) 0x30000000#32 := by decide
  have hsmp : ∀ ch, HasFieldsOf (.smp .audio ch 0#32) (0x40000000#32 ||| (ch.bit.setWidth 32 <<< 8)) := by
    rintro (_ | _) <;> decide
  cases i with
  | nop => exact hnop
  | pwr _ pid _ => exact hpwr pid
  | prd _ pid => exact hprd pid
  | bstart => exact hbstart
  | smp _ ch _ => exact hsmp ch

/-- R81, R82: a CMD word is a command's own word exactly when it has its fields. -/
theorem cmdOf_eq_iff (i : Instr) (cmd : Word) : cmdOf i = cmd ↔ HasFieldsOf i cmd := by
  refine ⟨fun h => h ▸ hasFieldsOf_cmdOf i, fun h => ?_⟩
  obtain ⟨hopc, hhi, hch, hlo, hpid⟩ := h
  obtain ⟨iopc, ihi, ich, ilo, ipid⟩ := hasFieldsOf_cmdOf i
  exact cmd_ext (iopc.trans hopc.symm) (ihi.trans hhi.symm) (ich.trans hch.symm) (ilo.trans hlo.symm)
    (ipid.trans hpid.symm)

/-! ### The rows of the opcode table -/

/-- R82, R86: the word of a command matches its row, whose ports are those on which the command is legal. -/
theorem fitsRow (i : Instr) : FitsRow.Statement i := by
  cases i with
  | nop port => exact FitsRow.nop port
  | pwr port pid data => exact FitsRow.pwr port pid data
  | prd port pid => exact FitsRow.prd port pid
  | bstart port => exact FitsRow.bstart port
  | smp port ch x => exact FitsRow.smp port ch x

theorem rowOf_mem_opcodeTable (i : Instr) : rowOf i ∈ opcodeTable := by
  cases i <;> simp [rowOf, opcodeTable]

/-- Masking a CMD word masks each field. -/
theorem fields_of_and_eq {cmd mask pattern : Word} (h : cmd &&& mask = pattern) :
    opcOf cmd &&& opcOf mask = opcOf pattern ∧ rsvHiOf cmd &&& rsvHiOf mask = rsvHiOf pattern ∧
    chBitOf cmd &&& chBitOf mask = chBitOf pattern ∧ rsvLoOf cmd &&& rsvLoOf mask = rsvLoOf pattern ∧
    pidOf cmd &&& pidOf mask = pidOf pattern := by
  subst h
  simp only [opcOf, rsvHiOf, chBitOf, rsvLoOf, pidOf, BitVec.extractLsb'_and, and_self]

/-- R82: every row tests the whole of OPC and of both reserved fields; only SMP's leaves CH open, and only those of PWR
and PRD leave PID open. -/
theorem row_mask_fields : ∀ row ∈ opcodeTable,
    opcOf row.mask = BitVec.allOnes 4 ∧ rsvHiOf row.mask = BitVec.allOnes 19 ∧ rsvLoOf row.mask = BitVec.allOnes 2 ∧
    (chBitOf row.mask = BitVec.allOnes 1 ∨ opcOf row.pattern = 0x4#4) ∧
    (pidOf row.mask = BitVec.allOnes 6 ∨ opcOf row.pattern = 0x1#4 ∨ opcOf row.pattern = 0x2#4) := by decide

/-- R82, R86: a row's pattern has an opcode below 0x5 and zeros in its other fields, and a row of a one-port opcode has
that port only. -/
theorem row_pattern_fields : ∀ row ∈ opcodeTable,
    rsvHiOf row.pattern = 0#19 ∧ rsvLoOf row.pattern = 0#2 ∧ chBitOf row.pattern = 0#1 ∧ pidOf row.pattern = 0#6 ∧
    (opcOf row.pattern).toNat < 0x5 ∧ (opcOf row.pattern = 0x1#4 → row.ports = [.control]) ∧
    (opcOf row.pattern = 0x3#4 ∨ opcOf row.pattern = 0x4#4 → row.ports = [.audio]) := by decide

theorem opcOf_of_row_match {row : OpcodeRow} (hrow : row ∈ opcodeTable) {cmd : Word}
    (h : cmd &&& row.mask = row.pattern) : opcOf cmd = opcOf row.pattern := by
  obtain ⟨hopc, -⟩ := fields_of_and_eq h
  obtain ⟨hmask, -⟩ := row_mask_fields row hrow
  rwa [hmask, BitVec.and_allOnes] at hopc

/-- Settles O5: every row tests the whole opcode, and no two rows have the same one. -/
theorem opcodeRowsAreDisjoint : Obligations.OpcodeRowsAreDisjoint := by
  intro cmd row hrow row' hrow' h h'
  have hinj : ∀ row ∈ opcodeTable, ∀ row' ∈ opcodeTable, opcOf row.pattern = opcOf row'.pattern → row = row' := by
    decide
  exact hinj row hrow row' hrow' ((opcOf_of_row_match hrow h).symm.trans (opcOf_of_row_match hrow' h'))

/-! ### The legal words by their fields -/

/-- R84, R85, R86: what every legal (port, CMD) pair keeps to, field by field. -/
structure LegalFields (port : Port) (cmd : Word) : Prop where
  rsvHi   : rsvHiOf cmd = 0#19
  rsvLo   : rsvLoOf cmd = 0#2
  channel : chBitOf cmd = 0#1 ∨ opcOf cmd = 0x4#4
  pid     : pidOf cmd = 0#6 ∨ opcOf cmd = 0x1#4 ∨ opcOf cmd = 0x2#4
  opcode  : (opcOf cmd).toNat < 0x5
  control : opcOf cmd = 0x1#4 → port = .control
  audio   : opcOf cmd = 0x3#4 ∨ opcOf cmd = 0x4#4 → port = .audio

/-- R84 to R86: a (port, CMD) pair that a row accepts is legal. -/
theorem legalFields_of_row_match {row : OpcodeRow} (hrow : row ∈ opcodeTable) {port : Port} {cmd : Word}
    (h : cmd &&& row.mask = row.pattern) (hport : port ∈ row.ports) : LegalFields port cmd := by
  have hopc := opcOf_of_row_match hrow h
  obtain ⟨-, hhi, hch, hlo, hpid⟩ := fields_of_and_eq h
  obtain ⟨-, mhi, mlo, mch, mpid⟩ := row_mask_fields row hrow
  obtain ⟨phi, plo, pch, ppid, popc, pcontrol, paudio⟩ := row_pattern_fields row hrow
  rw [mhi, BitVec.and_allOnes, phi] at hhi
  rw [mlo, BitVec.and_allOnes, plo] at hlo
  rw [← hopc] at mch mpid popc pcontrol paudio
  refine ⟨hhi, hlo, mch.imp_left fun hm => ?_, mpid.imp_left fun hm => ?_, popc, fun ho => ?_, fun ho => ?_⟩
  · rwa [hm, BitVec.and_allOnes, pch] at hch
  · rwa [hm, BitVec.and_allOnes, ppid] at hpid
  · exact List.mem_singleton.1 (pcontrol ho ▸ hport)
  · exact List.mem_singleton.1 (paudio ho ▸ hport)

end Sys2Proof.Proofs

/-! What the decoder answers (R83 to R90): on a command's own word the command, and a command on no other word; and the
legal words by their fields. -/

namespace Sys2Proof.Proofs

open Sys2Proof.Machine Sys2Proof.Laws

/-! ### The decoder against the encoder -/

/-- R83: the DATA word that a command carries, where it uses it, is `data`. -/
def CarriesData (i : Instr) (data : Word) : Prop :=
  match i with
  | .pwr _ _ d => d = data
  | .smp _ _ x => x = data
  | _ => True

theorem carriesData_dataOf (i : Instr) : CarriesData i (dataOf i) := by
  cases i <;> trivial

/-- R5, R83: the CH bit of the channel that a bit names is that bit. -/
@[simp] theorem bit_channelOf : ∀ bit : BitVec 1, (channelOf bit).bit = bit := by decide

@[simp] theorem channelOf_bit : ∀ ch : Channel, channelOf ch.bit = ch
  | .left => rfl
  | .right => rfl

theorem needNoChannel_eq_command_iff {cmd : Word} {op : Decoded} {i : Instr} :
    needNoChannel cmd op = .command i ↔ chBitOf cmd = 0#1 ∧ op = .command i := by
  unfold needNoChannel
  split <;> simp [*]

theorem needNoPid_eq_command_iff {cmd : Word} {op : Decoded} {i : Instr} :
    needNoPid cmd op = .command i ↔ pidOf cmd = 0#6 ∧ op = .command i := by
  unfold needNoPid
  split <;> simp [*]

theorem checkPort_eq_command_iff {op : Decoded} {i : Instr} :
    checkPort op = .command i ↔ op = .command i ∧ i.wellFormed = true := by
  unfold checkPort
  cases op with
  | illegal => simp
  | command j =>
    dsimp only
    split
    next hw => exact ⟨fun h => ⟨h, by cases h; exact hw⟩, And.left⟩
    next hw => exact ⟨nofun, fun ⟨h, hi⟩ => by cases h; exact absurd hi hw⟩

/-- R89: a transaction whose command is still to be tested for its port has the fields, the port and the DATA of that
command. -/
theorem fields_of_decodeOp {t : Transaction} {i : Instr} (h : decodeOp t = .command i) :
    HasFieldsOf i t.cmd ∧ i.port = t.port ∧ CarriesData i t.data := by
  unfold decodeOp at h
  split at h
  · cases h
  next hrsv =>
    obtain ⟨hhi, hlo⟩ : rsvHiOf t.cmd = 0#19 ∧ rsvLoOf t.cmd = 0#2 := by simpa using hrsv
    split_ifs at h with h0 h1 h2 h3 h4
    · simp only [needNoChannel_eq_command_iff, needNoPid_eq_command_iff] at h
      obtain ⟨hch, hpid, ⟨⟩⟩ := h
      exact ⟨⟨h0, hhi, hch, hlo, hpid⟩, rfl, trivial⟩
    · obtain ⟨hch, ⟨⟩⟩ := needNoChannel_eq_command_iff.1 h
      exact ⟨⟨h1, hhi, hch, hlo, rfl⟩, rfl, rfl⟩
    · obtain ⟨hch, ⟨⟩⟩ := needNoChannel_eq_command_iff.1 h
      exact ⟨⟨h2, hhi, hch, hlo, rfl⟩, rfl, trivial⟩
    · simp only [needNoChannel_eq_command_iff, needNoPid_eq_command_iff] at h
      obtain ⟨hch, hpid, ⟨⟩⟩ := h
      exact ⟨⟨h3, hhi, hch, hlo, hpid⟩, rfl, trivial⟩
    · obtain ⟨hpid, ⟨⟩⟩ := needNoPid_eq_command_iff.1 h
      exact ⟨⟨h4, hhi, (bit_channelOf _).symm, hlo, hpid⟩, rfl, rfl⟩

/-- R89: the fields of a command, its port and its DATA are read as that command. -/
theorem decodeOp_of_fields {t : Transaction} {i : Instr} (hcmd : HasFieldsOf i t.cmd) (hport : i.port = t.port)
    (hdata : CarriesData i t.data) : decodeOp t = .command i := by
  obtain ⟨hopc, hhi, hch, hlo, hpid⟩ := hcmd
  rw [decodeOp, if_neg (by simp [hhi, hlo]), hopc, ← hport]
  cases i with
  | nop | bstart =>
    exact needNoChannel_eq_command_iff.2 ⟨hch, needNoPid_eq_command_iff.2 ⟨hpid, rfl⟩⟩
  | pwr port pid d =>
    obtain rfl : d = t.data := hdata
    exact needNoChannel_eq_command_iff.2 ⟨hch, by rw [hpid]; rfl⟩
  | prd port pid => exact needNoChannel_eq_command_iff.2 ⟨hch, by rw [hpid]; rfl⟩
  | smp port ch x =>
    obtain rfl : x = t.data := hdata
    exact needNoPid_eq_command_iff.2 ⟨hpid, by rw [hch, chField, channelOf_bit]; rfl⟩

/-- R89, R90: the decoder answers a command that is legal on its port for that command's own word, with the command's
port and DATA, and for nothing else. -/
theorem decode_eq_command_iff {t : Transaction} {i : Instr} :
    decode t = .command i ↔ i.wellFormed = true ∧ cmdOf i = t.cmd ∧ i.port = t.port ∧ CarriesData i t.data := by
  rw [decode, checkPort_eq_command_iff, cmdOf_eq_iff, and_comm]
  exact and_congr_right fun _ => ⟨fields_of_decodeOp, fun ⟨hcmd, hport, hdata⟩ => decodeOp_of_fields hcmd hport hdata⟩

/-- The CMD word of a command, on a port where it is legal and with whatever DATA it ignores, decodes to it. -/
theorem decode_cmdOf {i : Instr} {data : Word} (hw : i.wellFormed = true) (hdata : CarriesData i data) :
    decode ⟨i.port, cmdOf i, data⟩ = .command i :=
  decode_eq_command_iff.2 ⟨hw, rfl, rfl, hdata⟩

theorem decode_encode {i : Instr} (hw : i.wellFormed = true) : decode (encode i) = .command i :=
  decode_cmdOf hw (carriesData_dataOf i)

/-- Settles O2: a command's own transaction has its fields, its port and its DATA. -/
theorem decodeOfEncodeIsTheCommand : Obligations.DecodeOfEncodeIsTheCommand :=
  fun _ => decode_encode

/-- Settles O3: the DATA word is compared where the command holds one. -/
theorem decodedCommandCarriesTheTransaction : Obligations.DecodedCommandCarriesTheTransaction := by
  intro t i h
  obtain ⟨-, hcmd, hport, hdata⟩ := decode_eq_command_iff.1 h
  refine ⟨hport, hcmd, ?_, ?_⟩
  · rintro port pid data rfl
    exact hdata
  · rintro port ch x rfl
    exact hdata

/-- Settles O1: each of the six words is its command's own word, on a port where the command is legal. -/
theorem writtenWordsDecode : Obligations.WrittenWordsDecode :=
  ⟨decode_cmdOf (i := .nop .control) rfl trivial, decode_cmdOf (i := .pwr .control 0x3F#6 0x00000007#32) rfl rfl,
    decode_cmdOf (i := .prd .audio 0x05#6) rfl trivial, decode_cmdOf (i := .bstart .audio) rfl trivial,
    decode_cmdOf (i := .smp .audio .left 0x3F000000#32) rfl rfl,
    decode_cmdOf (i := .smp .audio .right 0xBF800000#32) rfl rfl⟩

/-- Settles O7: the CMD column of R91 is written in the expansion as in the encoder. -/
theorem assembledFormsCarryTheirCommands : Obligations.AssembledFormsCarryTheirCommands :=
  fun _ _ _ _ => ⟨rfl, rfl, rfl, rfl, rfl⟩

/-! ### Which transactions are commands -/

/-- The command that legal fields, a port and a DATA word stand for. -/
theorem exists_command_of_legalFields {t : Transaction} (h : LegalFields t.port t.cmd) :
    ∃ i, i.wellFormed = true ∧ HasFieldsOf i t.cmd ∧ i.port = t.port ∧ CarriesData i t.data := by
  obtain ⟨hhi, hlo, hch, hpid, hopc, hcontrol, haudio⟩ := h
  have hcases : ∀ opc : BitVec 4, opc.toNat < 0x5 →
      opc = 0x0#4 ∨ opc = 0x1#4 ∨ opc = 0x2#4 ∨ opc = 0x3#4 ∨ opc = 0x4#4 := by decide
  obtain h0 | h1 | h2 | h3 | h4 := hcases _ hopc
  · exact ⟨.nop t.port, rfl, ⟨h0, hhi, by simpa [h0] using hch, hlo, by simpa [h0] using hpid⟩, rfl, trivial⟩
  · exact ⟨.pwr t.port (pidOf t.cmd) t.data, by simp [Instr.wellFormed, hcontrol h1],
      ⟨h1, hhi, by simpa [h1] using hch, hlo, rfl⟩, rfl, rfl⟩
  · exact ⟨.prd t.port (pidOf t.cmd), rfl, ⟨h2, hhi, by simpa [h2] using hch, hlo, rfl⟩, rfl, trivial⟩
  · exact ⟨.bstart t.port, by simp [Instr.wellFormed, haudio (Or.inl h3)],
      ⟨h3, hhi, by simpa [h3] using hch, hlo, by simpa [h3] using hpid⟩, rfl, trivial⟩
  · exact ⟨.smp t.port (channelOf (chBitOf t.cmd)) t.data, by simp [Instr.wellFormed, haudio (Or.inr h4)],
      ⟨h4, hhi, (bit_channelOf _).symm, hlo, by simpa [h4] using hpid⟩, rfl, rfl⟩

/-- R89: the row of a decoded command accepts its transaction. -/
theorem rowOf_accepts {t : Transaction} {i : Instr} (h : decode t = .command i) :
    t.cmd &&& (rowOf i).mask = (rowOf i).pattern ∧ t.port ∈ (rowOf i).ports := by
  obtain ⟨hw, hcmd, hport, -⟩ := decode_eq_command_iff.1 h
  obtain ⟨hmatch, hlegal⟩ := fitsRow i
  rw [hw, hport] at hlegal
  exact ⟨hcmd ▸ hmatch, List.contains_iff_mem.1 hlegal⟩

theorem exists_decode_eq_command_iff (t : Transaction) :
    (∃ i, decode t = .command i) ↔ LegalFields t.port t.cmd := by
  constructor
  · rintro ⟨i, h⟩
    obtain ⟨hmatch, hport⟩ := rowOf_accepts h
    exact legalFields_of_row_match (rowOf_mem_opcodeTable i) hmatch hport
  · intro h
    obtain ⟨i, hw, hcmd, hport, hdata⟩ := exists_command_of_legalFields h
    exact ⟨i, decode_eq_command_iff.2 ⟨hw, (cmdOf_eq_iff i _).2 hcmd, hport, hdata⟩⟩

theorem exists_decode_eq_illegal_iff (t : Transaction) :
    (∃ why, decode t = .illegal why) ↔ ¬ LegalFields t.port t.cmd := by
  rw [← exists_decode_eq_command_iff]
  cases decode t <;> simp

/-- CH as one bit of the CMD word (R81). -/
theorem chBitOf_eq_zero_iff (cmd : Word) : chBitOf cmd = 0#1 ↔ cmd.getLsbD 8 = false := by
  have hone : ∀ bit : BitVec 1, bit = 0#1 ↔ bit.getLsbD 0 = false := by decide
  rw [hone]
  simp [chBitOf]

/-- R84 to R86: the ways in which a (port, CMD) pair can be illegal. -/
theorem not_legalFields_iff (port : Port) (cmd : Word) : ¬ LegalFields port cmd ↔
    (rsvHiOf cmd ≠ 0#19 ∨ rsvLoOf cmd ≠ 0#2) ∨ (cmd.getLsbD 8 = true ∧ opcOf cmd ≠ 0x4#4) ∨
    (pidOf cmd ≠ 0#6 ∧ opcOf cmd ≠ 0x1#4 ∧ opcOf cmd ≠ 0x2#4) ∨ 0x5 ≤ (opcOf cmd).toNat ∨
    (port = .audio ∧ opcOf cmd = 0x1#4) ∨ (port = .control ∧ (opcOf cmd = 0x3#4 ∨ opcOf cmd = 0x4#4)) := by
  constructor
  · intro hnot
    by_contra hrules
    simp only [not_or, not_and, not_not, not_le] at hrules
    obtain ⟨⟨hhi, hlo⟩, hch, hpid, hopc, haudio, hcontrol⟩ := hrules
    refine hnot ⟨hhi, hlo, ?_, or_iff_not_imp_left.2 fun h => ?_, hopc, fun h => ?_, fun h => ?_⟩
    · cases h8 : cmd.getLsbD 8 with
      | false => exact Or.inl ((chBitOf_eq_zero_iff _).2 h8)
      | true => exact Or.inr (hch h8)
    · exact or_iff_not_imp_left.2 (hpid h)
    · cases hport : port with
      | control => rfl
      | audio => exact absurd h (haudio hport)
    · cases hport : port with
      | control => exact absurd h (not_or.2 (hcontrol hport))
      | audio => rfl
  · rintro hrules ⟨hhi, hlo, hch, hpid, hopc, hcontrol, haudio⟩
    rw [chBitOf_eq_zero_iff] at hch
    obtain (h | h) | ⟨h8, h⟩ | ⟨h, h1, h2⟩ | h | ⟨hport, h⟩ | ⟨hport, h⟩ := hrules
    · exact h hhi
    · exact h hlo
    · exact hch.elim (by simp [h8]) h
    · exact hpid.elim h (·.elim h1 h2)
    · omega
    · cases hport.symm.trans (hcontrol h)
    · cases hport.symm.trans (haudio h)

/-- Settles O6: a transaction is illegal when its fields are not the legal ones. -/
theorem illegalExactlyWhenTheRulesSay : Obligations.IllegalExactlyWhenTheRulesSay :=
  fun t => (exists_decode_eq_illegal_iff t).trans (not_legalFields_iff t.port t.cmd)

/-- Settles O4: the row of a decoded command accepts it, and a transaction that a row accepts has legal fields. -/
theorem decodeFollowsTheOpcodeTable : Obligations.DecodeFollowsTheOpcodeTable := by
  refine ⟨fun t => ⟨?_, ?_⟩, fun t i h => ⟨rowOf_mem_opcodeTable i, rowOf_accepts h⟩⟩
  · rintro ⟨i, h⟩
    exact ⟨rowOf i, rowOf_mem_opcodeTable i, rowOf_accepts h⟩
  · rintro ⟨row, hrow, hmatch, hport⟩
    exact (exists_decode_eq_command_iff t).2 (legalFields_of_row_match hrow hmatch hport)

end Sys2Proof.Proofs

/-! What the step does with a decoded transaction: an illegal one, one on the wrong port, one placed from its table word,
and a reserved parameter id (R80, R86 to R88). -/

namespace Sys2Proof.Proofs

open Sys2Proof.Machine Sys2Proof.Laws

/-- Settles O9: the request is fetched and ignored, which is what a NOP does. -/
theorem illegalCommandIsIgnored : Obligations.IllegalCommandIsIgnored := by
  intro s port rest r q why hsched hstream hdecode
  have hstep := step_of_fetch_illegal (fetch_of_arrival hsched hstream) hdecode
  exact ⟨⟨_, hstep, setStream_blk s port q, rfl⟩, hstep⟩

/-- Settles O10: the port is not that of the command, so its meaning is R87's. -/
theorem wrongPortCommandIsIgnored : Obligations.WrongPortCommandIsIgnored :=
  fun _ _ _ _ _ => ⟨rfl, rfl, rfl⟩

theorem decode_of_decodeTableWord {nbits w : Nat} {i : Instr} (h : decodeTableWord nbits w = some i) :
    decode ⟨tablePort (tableCmd nbits w), tableCmd nbits w, tableData nbits w⟩ = .command i := by
  unfold decodeTableWord at h
  split at h
  next hdecode => rw [hdecode, Option.some.inj h]
  · cases h

/-- Settles O13: the offered transaction is the one fetched, and its fetch gives the state back. -/
theorem placedTableWordRunsNext : Obligations.PlacedTableWordRunsNext :=
  fun s _ _ _ h => step_of_fetch_command (fetch_offer s _) (decode_of_decodeTableWord h)

/-- R50, R88: the ids 0x05 to 0x1F name no register. -/
theorem paramId_eq_reserved (pid : BitVec 6) : 0x05 ≤ pid.toNat → pid.toNat ≤ 0x1F → paramId pid = .reserved :=
  FitsRow.forall_pid (P := fun pid => 0x05 ≤ pid.toNat → pid.toNat ≤ 0x1F → paramId pid = .reserved) (by decide) pid

/-- Settles O18: R86 makes both legal whatever the id, and a reserved id names no register to write or read. -/
theorem reservedIdsDropAndReadZero : Obligations.ReservedIdsDropAndReadZero := by
  intro s port pid d hlo hhi
  have hres := paramId_eq_reserved pid hlo hhi
  refine ⟨decode_encode rfl, decode_encode rfl, ?_, ?_⟩
  · rw [exec_eq, Block.effect, Block.pwr, write_reserved _ hres]
    rfl
  · rw [exec_eq, Block.effect, Block.prd, read_eq_registerOf, hres]
    rfl

end Sys2Proof.Proofs

/-! The parameter store (41_parameter_store.md): what the clamps of R101 and R102 answer, the register that each id writes
and reads (R50, R100, R103), and the restore of saved parameters (D30). -/

namespace Sys2Proof.Proofs

open Sys2Proof.Machine Sys2Proof.Laws

/-! ### The clamps -/

/-- The value of a word is above 1 when its sign is positive and its magnitude above 1. -/
theorem one_lt_realOf_iff (d : Word) : 1 < realOf d ↔ signBit d = false ∧ 2 ^ 149 < mag d := by
  have hunits : 1 < realOf d ↔ 2 ^ 149 < units d := by
    rw [realOf, one_lt_div (by positivity)]
    norm_cast
  rw [hunits, units]
  cases signBit d <;> simp

/-- The value of a word is below −1 when its sign is negative and its magnitude above 1. -/
theorem realOf_lt_neg_one_iff (d : Word) : realOf d < -1 ↔ signBit d = true ∧ 2 ^ 149 < mag d := by
  have hunits : realOf d < -1 ↔ units d < -2 ^ 149 := by
    rw [realOf, div_lt_iff₀ (by positivity), neg_one_mul]
    norm_cast
  rw [hunits, units]
  cases signBit d <;> simp

theorem clampMix_of_isNaN {d : Word} (h : isNaN d = true) : clampMix d = none := if_pos h

/-- R102 on a finite word, by its value: the model's tests of sign and magnitude are those of R102's bounds. -/
theorem clampMix_of_isFinite {d : Word} (h : isFinite d = true) : clampMix d =
    if 1 < realOf d then some Config.mixMax else if realOf d < -1 then some Config.mixMin else some d := by
  simp [clampMix, isNaN_of_isFinite h, isInf_of_isFinite h, one_lt_realOf_iff, realOf_lt_neg_one_iff]

theorem isFinite_of_mixLegal {m : Word} (h : MixLegal m) : isFinite m = true := by
  rw [isFinite, bne_iff_ne, expField_eq]
  omega

/-- R102: a legal mix value is stored as it is. -/
theorem clampMix_of_mixLegal {m : Word} (h : MixLegal m) : clampMix m = some m := by
  have hmag : ¬ 2 ^ 149 < mag m := (mag_le_one_of_mixLegal h).not_gt
  rw [clampMix_of_isFinite (isFinite_of_mixLegal h), if_neg fun hgt => hmag ((one_lt_realOf_iff m).1 hgt).2,
    if_neg fun hlt => hmag ((realOf_lt_neg_one_iff m).1 hlt).2]

/-- R101: a word between non-negative bounds is stored as it is. -/
theorem clampWord_of_bounds {w : Word} {lo hi : Nat} (h : lo ≤ w.toNat ∧ w.toNat ≤ hi) (hhi : hi < 2 ^ 31) :
    clampWord w lo hi = w := by
  have hint : sint32 w = w.toNat := BitVec.toInt_eq_toNat_of_lt (by omega)
  have hclamp : clampInt (sint32 w) lo hi = w.toNat := by rw [hint, clampInt]; omega
  rw [clampWord, hclamp, word, BitVec.ofInt_natCast, BitVec.ofNat_toNat, BitVec.setWidth_eq]

theorem clampWord_of_bitLegal {w : Word} (h : BitLegal w) : clampWord w 0 1 = w :=
  clampWord_of_bounds (lo := 0) (hi := 1) (by rcases h with rfl | rfl <;> decide) (by decide)

/-! ### The register of an id -/

/-- R50: the register of a register's id is that register. -/
theorem paramId_pidOfParam (reg : ParamId) : paramId (pidOfParam reg) = reg := by
  cases reg with
  | mask k => exact (by decide : ∀ k : Fin 32, paramId (pidOfParam (.mask k)) = .mask k) k
  | mix | dsFactor | bitDepth | crushMethod | masksEnabled | reserved => rfl

/-- R100: what a PWR does where it is legal. -/
theorem exec_pwr_control (pid : BitVec 6) (data : Word) (s : State) : exec (.pwr .control pid data) s =
    .next { s with blk := { s.blk with p := s.blk.p.write pid data }, resp := 0#32 } :=
  exec_eq _ s

/-- R103: a PRD answers the register that its id names. -/
theorem exec_prd (port : Port) (reg : ParamId) (s : State) : exec (.prd port (pidOfParam reg)) s =
    .next { s with resp := registerOf s.blk.p reg } := by
  rw [exec_eq, Block.effect, Block.prd, read_eq_registerOf, paramId_pidOfParam]
  rfl

theorem write_mix_of_some (p : Params) {d v : Word} (h : clampMix d = some v) :
    p.write 0x00#6 d = { p with mix := v } := by
  simp [Params.write, paramId, h]

theorem write_mix_of_none (p : Params) {d : Word} (h : clampMix d = none) : p.write 0x00#6 d = p := by
  simp [Params.write, paramId, h]

theorem write_mask (p : Params) (k : Fin 32) (d : Word) :
    p.write (maskPid k) d = { p with mask := p.mask.set k (clampWord d 0 1) } := by
  have hreg : paramId (maskPid k) = .mask k := paramId_pidOfParam (.mask k)
  simp only [Params.write, hreg]

/-- R100, R102: a PWR of MIX stores what ClampMix answers. -/
theorem exec_pwr_mix {d v : Word} (h : clampMix d = some v) (s : State) : exec (.pwr .control 0x00#6 d) s =
    .next { s with blk := { s.blk with p := { s.blk.p with mix := v } }, resp := 0#32 } := by
  rw [exec_pwr_control, write_mix_of_some _ h]

/-- Settles O16: each id writes the clamp of its own register. -/
theorem pwrStoresTheClampedInteger : Obligations.PwrStoresTheClampedInteger := by
  intro s d
  refine ⟨exec_pwr_control _ d s, exec_pwr_control _ d s, exec_pwr_control _ d s, exec_pwr_control _ d s, fun k => ?_⟩
  rw [← maskPid, exec_pwr_control, write_mask]
  rfl

/-- Settles O17: the write of MIX is that of ClampMix, whose four cases exclude one another. -/
theorem pwrClampsMix : Obligations.PwrClampsMix := by
  intro s d
  refine ⟨fun hnan => ?_, fun habove => exec_pwr_mix ?_ s, fun hbelow => exec_pwr_mix ?_ s,
    fun hfin hlo hhi => exec_pwr_mix ?_ s⟩
  · rw [exec_pwr_control, write_mix_of_none _ (clampMix_of_isNaN hnan)]
  · obtain rfl | ⟨hfin, hgt⟩ := habove
    · decide
    · rw [clampMix_of_isFinite hfin, if_pos hgt]
  · obtain rfl | ⟨hfin, hlt⟩ := hbelow
    · decide
    · rw [clampMix_of_isFinite hfin, if_neg (by linarith), if_pos hlt]
  · rw [clampMix_of_isFinite hfin, if_neg hhi.not_gt, if_neg hlo.not_gt]

/-- Settles O19: the ids are those of the registers. -/
theorem prdAnswersTheRegister : Obligations.PrdAnswersTheRegister :=
  fun s port => ⟨exec_prd port .mix s, exec_prd port .dsFactor s, exec_prd port .bitDepth s,
    exec_prd port .crushMethod s, exec_prd port .masksEnabled s, fun k => exec_prd port (.mask k) s⟩

/-! ### Saving and restoring -/

/-- R40, R100: writing a register's legal word stores that word. -/
theorem registerOf_write_saved {p : Params} (hp : p.Legal) (q : Params) (pid : BitVec 6) :
    registerOf (q.write pid (registerOf p (paramId pid))) (paramId pid) = registerOf p (paramId pid) := by
  obtain ⟨hmix, hds, hbd, hcm, hme, hmask⟩ := hp
  unfold Params.write
  cases paramId pid with
  | mix => simp only [registerOf, clampMix_of_mixLegal hmix]
  | dsFactor => exact clampWord_of_bounds hds (by decide)
  | bitDepth => exact clampWord_of_bounds hbd (by decide)
  | crushMethod => exact clampWord_of_bitLegal hcm
  | masksEnabled => exact clampWord_of_bitLegal hme
  | mask k => exact (Vector.getElem_set_self k.isLt).trans (clampWord_of_bitLegal (hmask k))
  | reserved => rfl

/-- Writing one saved word restores what its id reads, and keeps what was restored before. -/
theorem read_write_saved {p q : Params} (hp : p.Legal) {pid pid' : BitVec 6}
    (h : pid' = pid ∨ q.read pid' = p.read pid') : (q.write pid (p.read pid)).read pid' = p.read pid' := by
  by_cases heq : pid' = pid
  · rw [heq, read_eq_registerOf, read_eq_registerOf, registerOf_write_saved hp]
  · rw [read_write_other q heq, h.resolve_left heq]

/-- Writing the saved words of some ids restores what each of them reads, and keeps what was restored before. -/
theorem read_foldl_write_saved {p : Params} (hp : p.Legal) (n : Fin 64) (ids : List (Fin 64)) (q : Params)
    (h : n ∈ ids ∨ q.read (BitVec.ofFin n) = p.read (BitVec.ofFin n)) :
    (ids.foldl (fun acc n => acc.write (BitVec.ofFin n) (p.read (BitVec.ofFin n))) q).read (BitVec.ofFin n) =
      p.read (BitVec.ofFin n) := by
  induction ids generalizing q with
  | nil => exact h.resolve_left List.not_mem_nil
  | cons m ids ih =>
    apply ih
    rw [List.mem_cons, or_assoc] at h
    obtain rfl | hmem | hread := h
    · exact Or.inr (read_write_saved hp (Or.inl rfl))
    · exact Or.inl hmem
    · exact Or.inr (read_write_saved hp (Or.inr hread))

/-- R50: the 64 ids read every parameter register. -/
theorem params_ext_read {p q : Params} (h : ∀ pid, p.read pid = q.read pid) : p = q := by
  have hreg : ∀ reg, registerOf p reg = registerOf q reg := fun reg => by
    rw [← paramId_pidOfParam reg, ← read_eq_registerOf, ← read_eq_registerOf, h]
  rw [Params.mk.injEq]
  exact ⟨hreg .mix, hreg .dsFactor, hreg .bitDepth, hreg .crushMethod, hreg .masksEnabled,
    Vector.ext fun k hk => hreg (.mask ⟨k, hk⟩)⟩

/-- Settles O21: every id is written, so every id reads its saved word. -/
theorem restoreOfSavedParametersIsExact : Obligations.RestoreOfSavedParametersIsExact :=
  fun _ q hp => params_ext_read fun pid =>
    read_foldl_write_saved hp pid.toFin (List.finRange 64) q (Or.inl (List.mem_finRange pid.toFin))

end Sys2Proof.Proofs

/-! Proofs of the statements of 42_decimator.md. This part: what a command inside a block leaves of CFG, of the invariant and
of the phases (R45, R121). -/

namespace Sys2Proof.Proofs

open Sys2Proof.Machine Sys2Proof.Laws

/-- Everything a transaction inside a block can do: it is the SMP of one channel, or the SMP of none and writes at most P. -/
theorem perform_cases {t : Transaction} (h : isBstart t = false) (b : Block) :
    (∃ d x, (∀ c, isSmpOf c t = (d == c)) ∧ b.perform t = b.smp d x) ∨
    ((∀ c, isSmpOf c t = false) ∧ ∃ p, (b.perform t).1 = withParams b p) := by
  cases hsmp : isSmp t with
  | true =>
    obtain ⟨port, d, x, hdecode⟩ := (isSmp_iff t).1 hsmp
    exact Or.inl ⟨d, x, fun c => by simp [isSmpOf, hdecode], by simp [Block.perform, hdecode, Block.effect]⟩
  | false =>
    obtain ⟨hleft, hright⟩ := Bool.or_eq_false_iff.1 hsmp
    exact Or.inr ⟨fun c => by cases c <;> assumption, perform_eq_withParams hsmp h b⟩

/-- R41: only a BSTART writes CFG. -/
theorem perform_cfg {t : Transaction} (h : isBstart t = false) (b : Block) : (b.perform t).1.cfg = b.cfg := by
  obtain ⟨d, x, -, hperform⟩ | ⟨-, p, hperform⟩ := perform_cases h b
  · rw [hperform, smp_cfg]
  · rw [hperform]; rfl

/-- R121: inside a block, a phase advances by the channel's own SMPs and by nothing else. -/
theorem toNat_perform_ph {t : Transaction} (h : isBstart t = false) {b : Block} (hb : b.Inv) (c : Channel) :
    ((b.perform t).1.chan c).ph.toNat =
      ((b.chan c).ph.toNat + if isSmpOf c t then 1 else 0) % b.cfg.dsFactor.toNat := by
  obtain ⟨-, ⟨-, ⟨hds1, hds16⟩, -⟩, -, hph, -⟩ := hb
  have hkept : (b.chan c).ph.toNat = ((b.chan c).ph.toNat + 0) % b.cfg.dsFactor.toNat :=
    (Nat.mod_eq_of_lt ((phasesInRange_iff b).1 hph c)).symm
  obtain ⟨d, x, hsmp, hperform⟩ | ⟨hsmp, p, hperform⟩ := perform_cases h b
  · rw [hperform, hsmp]
    by_cases hd : c = d
    · rw [hd, smp_chan_self, toNat_advance_ph _ hds1 hds16, hold_ph, if_pos (beq_self_eq_true d)]
    · rw [smp_chan_other _ _ hd, if_neg (by simpa using Ne.symm hd), ← hkept]
  · rw [hperform, hsmp, withParams_chan, if_neg Bool.false_ne_true, ← hkept]

theorem serve_inv (ts : List Transaction) {b : Block} (h : b.Inv) : (b.serve ts).1.Inv := by
  induction ts generalizing b with
  | nil => exact h
  | cons t ts ih => exact ih (perform_inv h t)

theorem serve_cfg {ts : List Transaction} (hts : ∀ t ∈ ts, isBstart t = false) (b : Block) :
    (b.serve ts).1.cfg = b.cfg := by
  induction ts generalizing b with
  | nil => rfl
  | cons t ts ih =>
    obtain ⟨ht, hts⟩ := List.forall_mem_cons.1 hts
    exact (ih hts _).trans (perform_cfg ht b)

/-- R121 over a stream: from any phase, the channel's SMPs are counted modulo CFG.DS_FACTOR. -/
theorem toNat_serve_ph {ts : List Transaction} (hts : ∀ t ∈ ts, isBstart t = false) {b : Block} (hb : b.Inv)
    (c : Channel) : ((b.serve ts).1.chan c).ph.toNat =
      ((b.chan c).ph.toNat + ts.countP (isSmpOf c)) % b.cfg.dsFactor.toNat := by
  induction ts generalizing b with
  | nil =>
    obtain ⟨-, -, -, hph, -⟩ := hb
    exact (Nat.mod_eq_of_lt ((phasesInRange_iff b).1 hph c)).symm
  | cons t ts ih =>
    obtain ⟨ht, hts⟩ := List.forall_mem_cons.1 hts
    rw [Block.serve, ih hts (perform_inv hb t), perform_cfg ht, toNat_perform_ph ht hb, Nat.mod_add_mod,
      List.countP_cons, add_assoc, Nat.add_comm (List.countP _ _)]

/-- Settles O49: a BSTART puts the phase at 0 and P.DS_FACTOR into CFG. -/
theorem phaseCountsSamplesModuloFactor : Obligations.PhaseCountsSamplesModuloFactor := by
  intro b c ts hb hts
  rw [toNat_serve_ph hts (bstart_inv hb), bstart_ph, BitVec.toNat_zero, Nat.zero_add]
  rfl

end Sys2Proof.Proofs

/-! The hold pattern of a block (R122): after its sample of index i a channel holds the shaped sample of the last hold point,
and the answer is the mix with it. -/

namespace Sys2Proof.Proofs

open Sys2Proof.Machine Sys2Proof.Laws

/-! ### A stream served up to an index -/

theorem serve_append_fst (ts us : List Transaction) (b : Block) :
    (b.serve (ts ++ us)).1 = ((b.serve ts).1.serve us).1 := by
  induction ts generalizing b with
  | nil => rfl
  | cons t ts ih => exact ih _

/-- R67: each RESP is that of its transaction on the S its predecessors leave. -/
theorem serve_getElem? (ts : List Transaction) (b : Block) (i : Nat) :
    (b.serve ts).2[i]? = ts[i]?.map fun t => ((b.serve (ts.take i)).1.perform t).2 := by
  induction ts generalizing b i with
  | nil => rfl
  | cons t ts ih =>
    cases i with
    | zero => rfl
    | succ i => exact ih _ i

/-! ### The samples of one channel -/

theorem decode_smpOn (c : Channel) (x : Word) : decode (smpOn c x) = .command (.smp .audio c x) := decode_encode rfl

theorem perform_smpOn (b : Block) (c : Channel) (x : Word) : b.perform (smpOn c x) = b.smp c x := by
  rw [Block.perform, decode_smpOn]
  rfl

theorem isSmpOf_smpOn (c : Channel) (x : Word) : isSmpOf c (smpOn c x) = true := by
  simp [isSmpOf, decode_smpOn]

theorem isBstart_map_smpOn (c : Channel) (xs : List Word) : ∀ t ∈ xs.map (smpOn c), isBstart t = false := by
  simp [isBstart, decode_smpOn]

/-- S in the middle of a block of one channel's samples, before the one of index i. -/
def beforeSample (b : Block) (c : Channel) (xs : List Word) (i : Nat) : Block :=
  (b.bstart.1.serve ((xs.take i).map (smpOn c))).1

theorem beforeSample_succ (b : Block) (c : Channel) {xs : List Word} {i : Nat} (hi : i < xs.length) :
    beforeSample b c xs (i + 1) = ((beforeSample b c xs i).smp c xs[i]).1 := by
  rw [beforeSample, List.take_succ_eq_append_getElem hi, List.map_append, serve_append_fst]
  exact congrArg Prod.fst (perform_smpOn _ c xs[i])

theorem beforeSample_inv {b : Block} (hb : b.Inv) (c : Channel) (xs : List Word) (i : Nat) :
    (beforeSample b c xs i).Inv := serve_inv _ (bstart_inv hb)

theorem beforeSample_cfg (b : Block) (c : Channel) (xs : List Word) (i : Nat) :
    (beforeSample b c xs i).cfg = b.bstart.1.cfg := serve_cfg (isBstart_map_smpOn c _) _

/-- R32, R121: the phase is the in-block index of the sample to come, modulo the factor. -/
theorem toNat_beforeSample_ph {b : Block} (hb : b.Inv) (c : Channel) {xs : List Word} {i : Nat} (hi : i ≤ xs.length) :
    ((beforeSample b c xs i).chan c).ph.toNat = i % b.p.dsFactor.toNat := by
  have hcount : ((xs.take i).map (smpOn c)).countP (isSmpOf c) = i := by
    rw [List.countP_eq_length.2 (List.forall_mem_map.2 fun x _ => isSmpOf_smpOn c x), List.length_map,
      List.length_take_of_le hi]
  rw [beforeSample, phaseCountsSamplesModuloFactor b c _ hb (isBstart_map_smpOn c _), hcount]

/-- R120: an SMP at phase 0 holds its shaped sample, another one keeps the held word. -/
theorem smp_held {b : Block} (hb : b.Inv) (c : Channel) (x : Word) :
    ((b.smp c x).1.chan c).held = if (b.chan c).ph = 0#4 then shapeWord b.cfg x else (b.chan c).held := by
  obtain ⟨-, hcfg, -, -, hcache⟩ := hb
  rw [smp_chan_self, advance_held, hold_held, shape_eq_shapeWord hcfg hcache]

/-- R120, R162: an SMP answers the mix with the word that its channel then holds. -/
theorem smp_resp_held (b : Block) (c : Channel) (x : Word) :
    (b.smp c x).2 = mixWith b.wg b.dg x ((b.smp c x).1.chan c).held := by
  rw [smp_resp, smp_chan_self, advance_held]

/-- R43: the gains inside a block are those its BSTART computed. -/
theorem beforeSample_gains {b : Block} (hb : b.Inv) (c : Channel) (xs : List Word) (i : Nat) :
    (beforeSample b c xs i).wg = b.bstart.1.wg ∧ (beforeSample b c xs i).dg = b.bstart.1.dg := by
  obtain ⟨-, -, ⟨hwg, hdg⟩, -, -⟩ := beforeSample_inv hb c xs i
  rw [hwg, hdg, beforeSample_cfg]
  exact ⟨rfl, rfl⟩

/-- R120, R121: the hold points of a block are the multiples of its factor. -/
theorem beforeSample_succ_held {b : Block} (hb : b.Inv) (c : Channel) {xs : List Word} {i : Nat} (hi : i < xs.length) :
    ((beforeSample b c xs (i + 1)).chan c).held =
      if b.p.dsFactor.toNat ∣ i then shapeWord b.bstart.1.cfg xs[i] else ((beforeSample b c xs i).chan c).held := by
  have hph : ((beforeSample b c xs i).chan c).ph = 0#4 ↔ b.p.dsFactor.toNat ∣ i := by
    rw [← BitVec.toNat_inj, toNat_beforeSample_ph hb c hi.le, Nat.dvd_iff_mod_eq_zero, BitVec.toNat_zero]
  rw [beforeSample_succ b c hi, smp_held (beforeSample_inv hb c xs i), beforeSample_cfg]
  exact if_congr hph rfl rfl

/-- R122: after the sample of index i the channel holds the shaped sample of the last multiple of the factor up to i. -/
theorem beforeSample_succ_held_eq_holdPoint {b : Block} (hb : b.Inv) (c : Channel) {xs : List Word} {i : Nat}
    (hi : i < xs.length) : ((beforeSample b c xs (i + 1)).chan c).held =
      shapeWord b.bstart.1.cfg (xs.getD (b.p.dsFactor.toNat * (i / b.p.dsFactor.toNat)) 0#32) := by
  induction i with
  | zero =>
    rw [beforeSample_succ_held hb c hi, if_pos (dvd_zero _), Nat.zero_div, Nat.mul_zero, List.getD_eq_getElem _ _ hi]
  | succ i ih =>
    rw [beforeSample_succ_held hb c hi]
    split
    next hpoint => rw [Nat.mul_div_cancel' hpoint, List.getD_eq_getElem _ _ hi]
    next hkeep => rw [ih (Nat.lt_of_succ_lt hi), Nat.succ_div_of_not_dvd hkeep]

/-- Settles O48: the RESP at index i is the mix with the word held after the sample of index i. -/
theorem holdPatternOfABlock : Obligations.HoldPatternOfABlock := by
  intro b c xs hb b0 n shaped i hi
  obtain ⟨hwg, hdg⟩ := beforeSample_gains hb c xs i
  have hresp : (b0.serve (xs.map (smpOn c))).2[i]? = some ((beforeSample b c xs i).smp c xs[i]).2 := by
    rw [serve_getElem?, ← List.map_take, List.getElem?_map, List.getElem?_eq_getElem hi, Option.map_some,
      Option.map_some, perform_smpOn]
    rfl
  rw [hresp, smp_resp_held, ← beforeSample_succ b c hi, beforeSample_succ_held_eq_holdPoint hb c hi, hwg, hdg,
    List.getD_eq_getElem _ _ hi]
  rfl

end Sys2Proof.Proofs

/-! The strategy "Bit-Shift" (43_bit_depth_reducer.md R134, R135), bit by bit. -/

namespace Sys2Proof.Proofs

open Sys2Proof.Machine Sys2Proof.Laws

/-! ### The shift pair as a mask (R135) -/

/-- Shifting right and back clears the bits below the shift; the copies of the sign are shifted out again. -/
theorem getLsbD_sshiftRight_shiftLeft (x : Word) (s : Nat) {j : Nat} (hj : j < 32) :
    ((x.sshiftRight s) <<< s).getLsbD j = (decide (s ≤ j) && x.getLsbD j) := by
  rw [BitVec.getLsbD_shiftLeft, BitVec.getLsbD_sshiftRight]
  by_cases hs : s ≤ j
  · simp [hs, hj, Nat.not_lt.2 hs, Nat.add_sub_cancel' hs, show ¬ 32 ≤ j - s by omega]
  · simp [hs, Nat.lt_of_not_le hs]

theorem getLsbD_truncate (x : Word) (b : Nat) {j : Nat} (hj : j < 32) :
    (truncate x b).getLsbD j = (decide (27 - b ≤ j) && x.getLsbD j) :=
  getLsbD_sshiftRight_shiftLeft x (27 - b) hj

theorem truncate_eq_and_tmask (x : Word) {b : Nat} (hb : 2 ≤ b) : truncate x b = x &&& tmask b :=
  BitVec.eq_of_getLsbD_eq fun j hj => by
    rw [getLsbD_truncate x b hj, BitVec.getLsbD_and, getLsbD_tmask hb hj, Bool.and_comm]

/-- TMASK in terms of the shift it masks. -/
theorem tmask_of_shift {s : Nat} (hs : s ≤ 27) : tmask (27 - s) = ~~~((1#32 <<< s) - 1#32) := by
  rw [tmask, Nat.sub_sub_self hs]

/-- Settles O35: the two shifts and TMASK agree in every bit. -/
theorem truncateClearsTheLowBits : Obligations.TruncateClearsTheLowBits := by
  refine ⟨fun x s _ hs => ?_, fun x b hb _ => ⟨truncate_eq_and_tmask x hb, fun k hk => getLsbD_truncate x b hk⟩⟩
  rw [← tmask_of_shift (by omega : s ≤ 27), ← truncate_eq_and_tmask x (by omega), truncate,
    Nat.sub_sub_self (by omega : s ≤ 27)]
  exact ⟨rfl, rfl⟩

/-! ### What is left of the fields of R12 -/

theorem testBit_expField (w : Word) (j : Nat) : (expField w).testBit j = (decide (j < 8) && w.getLsbD (23 + j)) := by
  rw [expField, BitVec.testBit_toNat, BitVec.getLsbD_extractLsb']

theorem testBit_fracField (w : Word) (j : Nat) : (fracField w).testBit j = (decide (j < 23) && w.getLsbD j) := by
  rw [fracField, BitVec.testBit_toNat, BitVec.getLsbD_extractLsb', Nat.zero_add]

theorem signBit_truncate (x : Word) (b : Nat) : signBit (truncate x b) = signBit x := by
  rw [signBit, getLsbD_truncate x b (by decide), decide_eq_true (by omega), Bool.true_and, signBit]

/-- From b = 4 on only fraction bits are cleared. -/
theorem expField_truncate (x : Word) {b : Nat} (hb : 4 ≤ b) : expField (truncate x b) = expField x := by
  refine Nat.eq_of_testBit_eq fun j => ?_
  rw [testBit_expField, testBit_expField]
  by_cases hj : j < 8
  · rw [getLsbD_truncate x b (by omega), decide_eq_true (by omega : 27 - b ≤ 23 + j), Bool.true_and]
  · rw [decide_eq_false hj, Bool.false_and, Bool.false_and]

/-- From b = 5 on the quiet bit is kept, so the fraction is not 0. -/
theorem isNaN_truncate_of_isQuietNaN {x : Word} {b : Nat} (hb : 5 ≤ b) (hx : isQuietNaN x = true) :
    isNaN (truncate x b) = true := by
  simp only [isQuietNaN, isNaN, Bool.and_eq_true, beq_iff_eq, bne_iff_ne] at hx ⊢
  obtain ⟨⟨hexp, -⟩, hquiet⟩ := hx
  have hkept : (truncate x b).getLsbD 22 = true := by
    rw [getLsbD_truncate x b (by decide), hquiet, Bool.and_true, decide_eq_true (by omega)]
  refine ⟨(expField_truncate x (by omega)).trans hexp, fun hzero => ?_⟩
  have hbit := testBit_fracField (truncate x b) 22
  rw [hzero, hkept, Nat.zero_testBit] at hbit
  exact absurd hbit (by decide)

/-- At b = 4 the whole fraction is cleared. -/
theorem fracField_truncate_four (x : Word) : fracField (truncate x 4) = 0 := by
  refine Nat.eq_of_testBit_eq fun j => ?_
  rw [testBit_fracField, Nat.zero_testBit]
  by_cases hj : j < 23
  · rw [getLsbD_truncate x 4 (by omega), decide_eq_false (by omega : ¬ 27 - 4 ≤ j), Bool.false_and, Bool.and_false]
  · rw [decide_eq_false hj, Bool.false_and]

theorem isInf_infOf (neg : Bool) : isInf (infOf neg) = true := by cases neg <;> decide
theorem signBit_infOf (neg : Bool) : signBit (infOf neg) = neg := by cases neg <;> decide

theorem truncate_four_of_isNaN {x : Word} (hx : isNaN x = true) : truncate x 4 = infOf (signBit x) := by
  rw [isNaN, Bool.and_eq_true, beq_iff_eq] at hx
  refine eq_of_isInf ?_ (isInf_infOf _) ((signBit_truncate x 4).trans (signBit_infOf _).symm)
  rw [isInf, expField_truncate x le_rfl, hx.1, fracField_truncate_four]
  rfl

/-- Up to b = 3 the lowest exponent bit is cleared, so the exponent field is not all ones. -/
theorem isFinite_truncate_of_le_three (x : Word) {b : Nat} (hb : b ≤ 3) : isFinite (truncate x b) = true := by
  rw [isFinite, bne_iff_ne]
  intro hexp
  have hbit := testBit_expField (truncate x b) 0
  rw [hexp, getLsbD_truncate x b (by decide), decide_eq_false (by omega : ¬ 27 - b ≤ 23 + 0),
    Bool.false_and, Bool.and_false] at hbit
  exact absurd hbit (by decide)

/-- Settles O36: which of the fields lies above the cleared bits, at each bit depth. -/
theorem truncateOfNonFiniteValues : Obligations.TruncateOfNonFiniteValues := by
  intro x b _ _
  refine ⟨signBit_truncate x b, fun hq hb => isNaN_truncate_of_isQuietNaN hb hq, ?_,
    fun _ hb => isFinite_truncate_of_le_three x hb⟩
  rintro hx rfl
  exact truncate_four_of_isNaN hx

end Sys2Proof.Proofs

/-! How far rounding moves a magnitude (R14), in quanta: from 2^23 units on a rounded word is normal, and it does not pass
a magnitude that binary32 holds. -/

namespace Sys2Proof.Proofs

open Sys2Proof.Machine Sys2Proof.Laws

/-! ### Normal words (R12) -/

theorem isNormal_iff (w : Word) : isNormal w = true ↔ isFinite w = true ∧ 1 ≤ expField w := by
  have := expField_lt w
  rw [isNormal, isFinite, Bool.and_eq_true, decide_eq_true_iff, decide_eq_true_iff, bne_iff_ne]
  omega

theorem isFinite_of_isNormal {w : Word} (h : isNormal w = true) : isFinite w = true := ((isNormal_iff w).1 h).1

theorem le_mag_of_one_le_expField {w : Word} (h : 1 ≤ expField w) : 2 ^ 23 ≤ mag w := by
  rw [mag, if_neg (by omega)]
  exact (Nat.le_add_right _ _).trans (Nat.le_mul_of_pos_right _ (Nat.two_pow_pos _))

theorem one_le_expField_of_le_mag {w : Word} (h : 2 ^ 23 ≤ mag w) : 1 ≤ expField w := by
  by_contra h0
  rw [mag, if_pos (by omega)] at h
  exact absurd (fracField_lt w) (by omega)

theorem isZero_of_one_le_expField {w : Word} (h : 1 ≤ expField w) : isZero w = false := by
  simp [isZero, Nat.one_le_iff_ne_zero.1 h]

theorem isZero_of_isNormal {w : Word} (h : isNormal w = true) : isZero w = false :=
  isZero_of_one_le_expField ((isNormal_iff w).1 h).2

theorem isSubnormal_of_one_le_expField {w : Word} (h : 1 ≤ expField w) : isSubnormal w = false := by
  simp [isSubnormal, Nat.one_le_iff_ne_zero.1 h]

theorem isZero_or_isSubnormal_or_isNormal {w : Word} (h : isFinite w = true) :
    (isZero w = true ∨ isSubnormal w = true) ∨ isNormal w = true := by
  by_cases he : expField w = 0
  · left
    by_cases hf : fracField w = 0 <;> simp [isZero, isSubnormal, he, hf]
  · exact Or.inr ((isNormal_iff w).2 ⟨h, by omega⟩)

/-! ### DAZ by the class of the word (R15) -/

theorem daz_of_not_isSubnormal {w : Word} (h : isSubnormal w = false) : daz w = w := by simp [daz, h]

theorem daz_of_one_le_expField {w : Word} (h : 1 ≤ expField w) : daz w = w :=
  daz_of_not_isSubnormal (isSubnormal_of_one_le_expField h)

theorem daz_of_isNormal {w : Word} (h : isNormal w = true) : daz w = w :=
  daz_of_one_le_expField ((isNormal_iff w).1 h).2

theorem daz_of_isNaN {w : Word} (h : isNaN w = true) : daz w = w :=
  daz_of_not_isSubnormal (by simp_all [isNaN, isSubnormal])

theorem daz_of_isInf {w : Word} (h : isInf w = true) : daz w = w := daz_of_not_isSubnormal (isSubnormal_of_isInf h)

theorem isZero_zeroOf (neg : Bool) : isZero (zeroOf neg) = true := by cases neg <;> decide
theorem signBit_zeroOf (neg : Bool) : signBit (zeroOf neg) = neg := by cases neg <;> decide
theorem isFinite_zeroOf (neg : Bool) : isFinite (zeroOf neg) = true := by cases neg <;> decide

theorem isZero_daz {w : Word} (h : isZero w = true ∨ isSubnormal w = true) : isZero (daz w) = true := by
  unfold daz
  split
  · exact isZero_zeroOf _
  · exact h.resolve_right ‹_›

theorem signBit_daz (w : Word) : signBit (daz w) = signBit w := by
  unfold daz
  split
  · exact signBit_zeroOf _
  · rfl

theorem isFinite_daz {w : Word} (h : isFinite w = true) : isFinite (daz w) = true := by
  unfold daz
  split
  · exact isFinite_zeroOf _
  · exact h

theorem mag_daz_le (w : Word) : mag (daz w) ≤ mag w := by
  unfold daz
  split
  · rw [(mag_eq_zero_iff _).2 (isZero_zeroOf _)]
    exact Nat.zero_le _
  · exact le_rfl

/-! ### The fields of a rounded word -/

theorem rnMag_lt (num den : Nat) : rnMag num den < 2 ^ 31 := (Nat.min_le_right _ _).trans_lt (by decide)

theorem signBit_rn32 (neg : Bool) (num den : Nat) : signBit (rn32 neg num den) = neg :=
  signBit_signed neg (rnMag_lt num den)

theorem expField_rn32 (neg : Bool) (num den : Nat) : expField (rn32 neg num den) = rnMag num den / 2 ^ 23 :=
  expField_signed neg (rnMag_lt num den)

theorem fracField_rn32 (neg : Bool) (num den : Nat) : fracField (rn32 neg num den) = rnMag num den % 2 ^ 23 :=
  fracField_signed neg (rnMag_lt num den)

/-- What R14 does to num/den units: r quanta of 2^e units are the rounding, and e is the exponent of the leading bit. -/
structure RoundsToQuanta (num den e r : Nat) : Prop where
  word : rnMag num den = min (e * 2 ^ 23 + r) 0x7F800000
  below : num < 2 ^ (24 + e) * den
  above : e = 0 ∨ 2 ^ (23 + e) * den ≤ num
  le_of_le : ∀ m, num ≤ m * 2 ^ e * den → r ≤ m
  ge_of_ge : ∀ m, m * 2 ^ e * den ≤ num → m ≤ r

theorem exists_roundsToQuanta (num : Nat) {den : Nat} (hd : 0 < den) : ∃ e r, RoundsToQuanta num den e r := by
  have hpos : 0 < den * 2 ^ (Nat.log2 (num / den) - 23) := by positivity
  refine ⟨Nat.log2 (num / den) - 23, roundHalfEven num (den * 2 ^ (Nat.log2 (num / den) - 23)), rfl, ?_, ?_, ?_, ?_⟩
  · rw [← Nat.div_lt_iff_lt_mul hd]
    exact Nat.lt_log2_self.trans_le (Nat.pow_le_pow_right (by decide) (by omega))
  · refine or_iff_not_imp_left.2 fun he => ?_
    rw [← Nat.le_div_iff_mul_le hd, ← Nat.le_log2]
    · omega
    · intro h0
      simp [h0] at he
  · intro m hm
    exact (roundHalfEven_bounds (lo := 0) hpos (by simp) (by rwa [Nat.mul_comm den, ← Nat.mul_assoc])).2
  · intro m hm
    have hscaled : m * (den * 2 ^ (Nat.log2 (num / den) - 23)) ≤ num := by rwa [Nat.mul_comm den, ← Nat.mul_assoc]
    exact (roundHalfEven_bounds hpos hscaled (Nat.le_mul_of_pos_right num hpos)).1

namespace RoundsToQuanta

variable {num den e r : Nat} (h : RoundsToQuanta num den e r)
include h

theorem den_pos : 0 < den := Nat.pos_of_mul_pos_left (Nat.zero_lt_of_lt h.below)

theorem rounded_le : r ≤ 2 ^ 24 := h.le_of_le _ (by rw [← pow_add]; exact h.below.le)

theorem exponent_or_leading_bit : e = 0 ∨ 2 ^ 23 ≤ r :=
  h.above.imp_right fun habove => h.ge_of_ge _ (by rwa [← pow_add])

/-- Rounding does not pass n quanta of 2^k units: a smaller exponent leaves room for a whole binade. -/
theorem quanta_le {k n : Nat} (hlo : 2 ^ 23 ≤ n) (hn : n < 2 ^ 24) (hle : num ≤ n * 2 ^ k * den) :
    e * 2 ^ 23 + r ≤ k * 2 ^ 23 + n ∧ r * 2 ^ e ≤ n * 2 ^ k := by
  have he : e ≤ k := by
    refine h.above.elim (fun h0 => h0 ▸ Nat.zero_le k) fun habove => ?_
    have hpow : 2 ^ (23 + e) < 2 ^ (24 + k) := calc
      2 ^ (23 + e) ≤ n * 2 ^ k := Nat.le_of_mul_le_mul_right (habove.trans hle) h.den_pos
      _ < 2 ^ 24 * 2 ^ k := Nat.mul_lt_mul_of_pos_right hn (Nat.two_pow_pos k)
      _ = 2 ^ (24 + k) := (pow_add ..).symm
    have := (Nat.pow_lt_pow_iff_right (by decide)).1 hpow
    omega
  rcases Nat.eq_or_lt_of_le he with rfl | hlt
  · have hr := h.le_of_le n hle
    exact ⟨by omega, Nat.mul_le_mul_right _ hr⟩
  · have hr := h.rounded_le
    refine ⟨by omega, ?_⟩
    calc r * 2 ^ e ≤ 2 ^ 24 * 2 ^ e := Nat.mul_le_mul_right _ hr
      _ = 2 ^ 23 * 2 ^ (e + 1) := by ring
      _ ≤ n * 2 ^ k := Nat.mul_le_mul hlo (Nat.pow_le_pow_right (by decide) hlt)

end RoundsToQuanta

/-- From the smallest normal magnitude on, rounding gives no zero and no subnormal. -/
theorem one_le_expField_rn32 (neg : Bool) {num den : Nat} (hd : 0 < den) (h : 2 ^ 23 * den ≤ num) :
    1 ≤ expField (rn32 neg num den) := by
  obtain ⟨e, r, hround⟩ := exists_roundsToQuanta num hd
  have hr : 2 ^ 23 ≤ r := hround.exponent_or_leading_bit.elim
    (fun h0 => hround.ge_of_ge _ (by rwa [h0, pow_zero, Nat.mul_one])) id
  rw [expField_rn32, hround.word]
  omega

/-- Rounding does not pass a magnitude that binary32 holds: n quanta of 2^k units. -/
theorem mag_rn32_le (neg : Bool) {num den k n : Nat} (hd : 0 < den) (hlo : 2 ^ 23 ≤ n) (hn : n < 2 ^ 24)
    (hfin : k * 2 ^ 23 + n < 0x7F800000) (hle : num ≤ n * 2 ^ k * den) :
    isFinite (rn32 neg num den) = true ∧ mag (rn32 neg num den) ≤ n * 2 ^ k := by
  obtain ⟨e, r, hround⟩ := exists_roundsToQuanta num hd
  obtain ⟨hword, hmag⟩ := hround.quanta_le hlo hn hle
  have hrn : rnMag num den = e * 2 ^ 23 + r := by
    rw [hround.word, Nat.min_eq_left]
    omega
  have hlt : e * 2 ^ 23 + r < 2 ^ 31 := (hword.trans_lt hfin).trans (by decide)
  constructor
  · rw [isFinite, bne_iff_ne, expField_rn32, hrn]
    omega
  · rw [rn32, hrn, mag_signed neg hround.exponent_or_leading_bit hround.rounded_le hlt]
    exact hmag

end Sys2Proof.Proofs

/-! The sign of a word (R12) through the arithmetic: an operand of the other sign gives the answer of the other sign, but
for QNAN. -/

namespace Sys2Proof.Proofs

open Sys2Proof.Machine Sys2Proof.Laws

/-- The word of the other sign. -/
def flipSign (w : Word) : Word := w ^^^ 0x80000000#32

@[simp] theorem signBit_flipSign (w : Word) : signBit (flipSign w) = !signBit w := by
  rw [signBit, flipSign, BitVec.getLsbD_xor, show (0x80000000#32).getLsbD 31 = true by decide, Bool.xor_true, signBit]

@[simp] theorem expField_flipSign (w : Word) : expField (flipSign w) = expField w := by
  rw [expField, flipSign, BitVec.extractLsb'_xor, show (0x80000000#32).extractLsb' 23 8 = 0#8 by decide,
    BitVec.xor_zero, expField]

@[simp] theorem fracField_flipSign (w : Word) : fracField (flipSign w) = fracField w := by
  rw [fracField, flipSign, BitVec.extractLsb'_xor, show (0x80000000#32).extractLsb' 0 23 = 0#23 by decide,
    BitVec.xor_zero, fracField]

@[simp] theorem mag_flipSign (w : Word) : mag (flipSign w) = mag w := by simp [mag]
@[simp] theorem isZero_flipSign (w : Word) : isZero (flipSign w) = isZero w := by simp [isZero]
@[simp] theorem isSubnormal_flipSign (w : Word) : isSubnormal (flipSign w) = isSubnormal w := by simp [isSubnormal]
@[simp] theorem isInf_flipSign (w : Word) : isInf (flipSign w) = isInf w := by simp [isInf]
@[simp] theorem isNaN_flipSign (w : Word) : isNaN (flipSign w) = isNaN w := by simp [isNaN]
@[simp] theorem isFinite_flipSign (w : Word) : isFinite (flipSign w) = isFinite w := by simp [isFinite]

theorem zeroOf_not (neg : Bool) : zeroOf (!neg) = flipSign (zeroOf neg) := by cases neg <;> decide
theorem infOf_not (neg : Bool) : infOf (!neg) = flipSign (infOf neg) := by cases neg <;> decide

theorem daz_flipSign (w : Word) : daz (flipSign w) = flipSign (daz w) := by
  unfold daz
  rw [isSubnormal_flipSign, signBit_flipSign, zeroOf_not]
  split <;> rfl

theorem rn32_not (neg : Bool) (num den : Nat) : rn32 (!neg) num den = flipSign (rn32 neg num den) :=
  word_ext (by rw [signBit_flipSign, signBit_rn32, signBit_rn32])
    (by rw [expField_flipSign, expField_rn32, expField_rn32])
    (by rw [fracField_flipSign, fracField_rn32, fracField_rn32])

theorem truncInt_flipSign (w : Word) : truncInt (flipSign w) = -truncInt w := by
  rw [truncInt, truncInt, mag_flipSign, signBit_flipSign]
  cases signBit w <;> simp

theorem f32OfInt_neg {k : Int} (hk : k ≠ 0) : f32OfInt (-k) = flipSign (f32OfInt k) := by
  have hsign : decide (-k < 0) = !decide (k < 0) := by
    rw [← decide_not, decide_eq_decide]
    omega
  rw [f32OfInt, f32OfInt, if_neg hk, if_neg (neg_ne_zero.2 hk), Int.natAbs_neg, hsign, rn32_not]

/-- Two answers that differ in their sign alone, or are both QNAN (R136(a)). -/
def Opposite (w w' : Word) : Prop := (w = qnan ∧ w' = qnan) ∨ (isNaN w = false ∧ w' = flipSign w)

theorem opposite_qnan : Opposite qnan qnan := Or.inl ⟨rfl, rfl⟩

theorem opposite_infOf (neg : Bool) : Opposite (infOf neg) (infOf !neg) := Or.inr ⟨isNaN_infOf neg, infOf_not neg⟩

theorem opposite_zeroOf (neg : Bool) : Opposite (zeroOf neg) (zeroOf !neg) := Or.inr ⟨isNaN_zeroOf neg, zeroOf_not neg⟩

theorem opposite_ftz_rn32 (neg : Bool) (num den : Nat) :
    Opposite (ftz (rn32 neg num den)) (ftz (rn32 (!neg) num den)) :=
  Or.inr ⟨isNaN_daz_of_not_isNaN (isNaN_rn32 neg num den), by rw [rn32_not, ftz, ftz, daz_flipSign]⟩

/-- The common form of R16 and R17: two classes of operands give QNAN, one the infinity, one the zero, and the others a
rounded magnitude, each of the sign `neg`. -/
theorem opposite_byClass (toQnan toQnan' toInf toZero neg : Bool) (num den : Nat) :
    Opposite
      (if toQnan then qnan else if toQnan' then qnan else if toInf then infOf neg else if toZero then zeroOf neg
        else ftz (rn32 neg num den))
      (if toQnan then qnan else if toQnan' then qnan else if toInf then infOf !neg else if toZero then zeroOf !neg
        else ftz (rn32 (!neg) num den)) := by
  split
  · exact opposite_qnan
  split
  · exact opposite_qnan
  split
  · exact opposite_infOf _
  split
  · exact opposite_zeroOf _
  · exact opposite_ftz_rn32 _ _ _

/-- R17: the sign of the dividend is a sign of the quotient. -/
theorem opposite_div32 (a b : Word) : Opposite (div32 a b) (div32 (flipSign a) b) := by
  rw [div32, div32, daz_flipSign]
  simp only [divDazed, isNaN_flipSign, isInf_flipSign, isZero_flipSign, mag_flipSign, signBit_flipSign, Bool.not_bne]
  exact opposite_byClass _ _ _ _ _ _ _

/-- R16: the sign of the second factor is a sign of the product. -/
theorem opposite_mul32 (a b : Word) : Opposite (mul32 a b) (mul32 a (flipSign b)) := by
  rw [mul32, mul32, daz_flipSign]
  simp only [mulDazed, isNaN_flipSign, isInf_flipSign, isZero_flipSign, mag_flipSign, signBit_flipSign, Bool.bne_not]
  exact opposite_byClass _ _ _ _ _ _ _

end Sys2Proof.Proofs

/-! The strategy "QL" (43_bit_depth_reducer.md R131 to R133, R136): a quotient, its truncation and its level. -/

namespace Sys2Proof.Proofs

open Sys2Proof.Machine Sys2Proof.Laws

/-! ### Quantize by the class of its quotient (R131) -/

/-- The level of R131: k quanta, and +0 for none. -/
def levelOf (q : Word) (k : Int) : Word := if k = 0 then 0x00000000#32 else mul32 q (f32OfInt k)

theorem levelOf_zero (q : Word) : levelOf q 0 = 0x00000000#32 := rfl

theorem levelOf_of_ne_zero (q : Word) {k : Int} (hk : k ≠ 0) : levelOf q k = mul32 q (f32OfInt k) := if_neg hk

theorem quantizeBy_of_isNaN {q x : Word} (h : isNaN (div32 x q) = true) : quantizeBy q x = qnan := by
  simp [quantizeBy, h]

theorem quantizeBy_of_isInf {q x : Word} (h : isInf (div32 x q) = true) : quantizeBy q x = div32 x q := by
  simp [quantizeBy, isNaN_of_isInf h, h]

theorem quantizeBy_of_isFinite {q x : Word} (h : isFinite (div32 x q) = true) :
    quantizeBy q x = levelOf q (truncInt (div32 x q)) := by
  simp [quantizeBy, levelOf, isNaN_of_isFinite h, isInf_of_isFinite h]

/-! ### The truncation is toward zero, and the cache does not show (R131 to R133) -/

theorem realOf_of_signBit_false {t : Word} (hs : signBit t = false) : realOf t = (mag t : ℚ) / 2 ^ 149 := by
  simp [realOf, units, hs]

theorem realOf_of_signBit_true {t : Word} (hs : signBit t = true) : realOf t = -((mag t : ℚ) / 2 ^ 149) := by
  simp [realOf, units, hs, neg_div]

/-- R11: the floor of a value from 0 on, the ceiling of one below. -/
theorem truncInt_eq_floor_or_ceil (t : Word) :
    truncInt t = if 0 ≤ realOf t then ⌊realOf t⌋ else ⌈realOf t⌉ := by
  have hfloor : ⌊(mag t : ℚ) / 2 ^ 149⌋ = ((mag t / 2 ^ 149 : ℕ) : ℤ) := by
    exact_mod_cast Rat.floor_natCast_div_natCast (mag t) (2 ^ 149)
  have hnonneg : 0 ≤ (mag t : ℚ) / 2 ^ 149 := by positivity
  cases hs : signBit t
  case false =>
    rw [realOf_of_signBit_false hs, if_pos hnonneg, hfloor]
    simp [truncInt, hs]
  case true =>
    have htrunc : truncInt t = -((mag t / 2 ^ 149 : ℕ) : ℤ) := by simp [truncInt, hs]
    rw [realOf_of_signBit_true hs, htrunc, ← hfloor]
    split
    next hneg =>
      have hzero : (mag t : ℚ) / 2 ^ 149 = 0 := le_antisymm (by linarith) hnonneg
      rw [hzero]
      simp
    next => rw [Int.ceil_neg]

theorem fillCache_eq {blk : Block} (h : blk.CacheCoherent) {b : Nat} (hb : b ≠ 0) :
    blk.fillCache b = { blk with qcBd := b, qcQ := qtab b } := by
  have hq := fillCache_qcQ h hb
  unfold Block.fillCache at hq ⊢
  split
  · rfl
  next heq =>
    obtain rfl := not_not.1 heq
    rw [if_neg heq] at hq
    rw [← hq]

theorem quantize_eq {blk : Block} (h : blk.CacheCoherent) (x : Word) {b : Nat} (hb : b ≠ 0) :
    blk.quantize x b = ({ blk with qcBd := b, qcQ := qtab b }, quantizeBy (qtab b) x) := by
  rw [Block.quantize, fillCache_eq h hb]

/-- Settles O31: Quantize by the class of its quotient, on the quantum that a coherent cache is filled with. -/
theorem quantizeTruncatesTowardZero : Obligations.QuantizeTruncatesTowardZero := by
  intro blk x b hcache hb _ t k
  have hk : k = truncInt t := (truncInt_eq_floor_or_ceil t).symm
  rw [quantize_eq hcache x (by omega), hk]
  refine ⟨quantizeBy_of_isNaN, quantizeBy_of_isInf, fun hfin h0 => ?_, fun hfin h0 => ?_, rfl⟩
  · exact (quantizeBy_of_isFinite hfin).trans (h0 ▸ levelOf_zero _)
  · exact (quantizeBy_of_isFinite hfin).trans (levelOf_of_ne_zero _ h0)

/-! ### The quantum and the quotient by it -/

/-- Every quantum is a positive normal word: 1/(2^b − 1) lies from 2^−24 to 1. -/
theorem isNormal_qtab {b : Nat} (hb : 2 ≤ b) (hb24 : b ≤ 24) : isNormal (qtab b) = true := by
  have hden : 0 < 2 ^ b - 1 := Nat.sub_pos_of_lt (Nat.one_lt_two_pow (by omega))
  have hle : 2 ^ b ≤ 2 ^ 24 := Nat.pow_le_pow_right (by decide) hb24
  rw [isNormal_iff]
  constructor
  · exact (mag_rn32_le false (k := 126) (n := 2 ^ 23) hden le_rfl (by decide) (by decide)
      (Nat.le_mul_of_pos_right _ hden)).1
  · exact one_le_expField_rn32 false hden (by omega)

theorem signBit_qtab (b : Nat) : signBit (qtab b) = false := signBit_rn32 _ _ _

section Quotient

variable {q x : Word}

theorem div32_of_isNaN (hx : isNaN x = true) : div32 x q = qnan :=
  divDazed_of_isNaN (Or.inl (by rwa [daz_of_isNaN hx]))

theorem div32_of_isInf (hq : isNormal q = true) (hx : isInf x = true) :
    div32 x q = infOf (signBit x != signBit q) := by
  rw [div32, daz_of_isInf hx, daz_of_isNormal hq]
  exact divDazed_eq_infOf (Or.inl ⟨hx, isFinite_of_isNormal hq⟩)

theorem div32_of_isZero_or_isSubnormal (hq : isNormal q = true) (hx : isZero x = true ∨ isSubnormal x = true) :
    div32 x q = zeroOf (signBit x != signBit q) := by
  rw [div32, daz_of_isNormal hq, ← signBit_daz x]
  exact divDazed_eq_zeroOf (Or.inr ⟨isZero_daz hx, isFinite_of_isNormal hq, isZero_of_isNormal hq⟩)

theorem div32_of_isNormal (hq : isNormal q = true) (hx : isNormal x = true) :
    div32 x q = ftz (rn32 (signBit x != signBit q) (mag x * 2 ^ 149) (mag q)) := by
  rw [div32, daz_of_isNormal hq, daz_of_isNormal hx]
  exact divDazed_of_nonzero (isFinite_of_isNormal hx) (isFinite_of_isNormal hq) (isZero_of_isNormal hx)
    (isZero_of_isNormal hq)

theorem signBit_div32 (hq : isNormal q = true) (hx : isFinite x = true) :
    signBit (div32 x q) = (signBit x != signBit q) := by
  rcases isZero_or_isSubnormal_or_isNormal hx with h | h
  · rw [div32_of_isZero_or_isSubnormal hq h, signBit_zeroOf]
  · rw [div32_of_isNormal hq h, ftz, signBit_daz, signBit_rn32]

/-- The quotient does not pass a magnitude that binary32 holds: n quanta of 2^k units. -/
theorem mag_div32_le (hq : isNormal q = true) (hx : isFinite x = true) {k n : Nat} (hlo : 2 ^ 23 ≤ n)
    (hn : n < 2 ^ 24) (hfin : k * 2 ^ 23 + n < 0x7F800000) (hle : mag x * 2 ^ 149 ≤ n * 2 ^ k * mag q) :
    isFinite (div32 x q) = true ∧ mag (div32 x q) ≤ n * 2 ^ k := by
  rcases isZero_or_isSubnormal_or_isNormal hx with h | h
  · rw [div32_of_isZero_or_isSubnormal hq h, (mag_eq_zero_iff _).2 (isZero_zeroOf _)]
    exact ⟨isFinite_zeroOf _, Nat.zero_le _⟩
  · obtain ⟨hF, hM⟩ := mag_rn32_le (signBit x != signBit q) (mag_pos (isZero_of_isNormal hq)) hlo hn hfin hle
    rw [div32_of_isNormal hq h]
    exact ⟨isFinite_daz hF, (mag_daz_le _).trans hM⟩

end Quotient

/-! ### Special values, and what a level can be (R131) -/

theorem truncInt_zeroOf (neg : Bool) : truncInt (zeroOf neg) = 0 := by cases neg <;> decide

theorem quantizeBy_of_isZero_or_isSubnormal {q x : Word} (hq : isNormal q = true)
    (hx : isZero x = true ∨ isSubnormal x = true) : quantizeBy q x = 0x00000000#32 := by
  have hdiv := div32_of_isZero_or_isSubnormal hq hx
  rw [quantizeBy_of_isFinite (hdiv ▸ isFinite_zeroOf _), hdiv, truncInt_zeroOf, levelOf_zero]

theorem quantizeBy_of_isInf_operand {q x : Word} (hq : isNormal q = true) (hsign : signBit q = false)
    (hx : isInf x = true) : quantizeBy q x = x := by
  have hdiv : div32 x q = x := by
    rw [div32_of_isInf hq hx, hsign, Bool.bne_false]
    exact eq_of_isInf (isInf_infOf _) hx (signBit_infOf _)
  rw [quantizeBy_of_isInf (hdiv.symm ▸ hx), hdiv]

theorem canonical_levelOf (q : Word) (k : Int) : Canonical (levelOf q k) := by
  unfold levelOf
  split
  · decide
  · exact canonical_mul32 _ _

/-- R131: every case of Quantize is an answer of the arithmetic or +0. -/
theorem canonical_quantizeBy (q x : Word) : Canonical (quantizeBy q x) := by
  rcases isNaN_or_isInf_or_isFinite (div32 x q) with h | h | h
  · rw [quantizeBy_of_isNaN h]
    exact canonical_qnan
  · rw [quantizeBy_of_isInf h]
    exact canonical_div32 x q
  · rw [quantizeBy_of_isFinite h]
    exact canonical_levelOf _ _

/-- A word of integer value has that many whole ones in its magnitude. -/
theorem mag_of_realOf_eq_intCast {w : Word} {k : Int} (h : realOf w = k) : mag w = k.natAbs * 2 ^ 149 := by
  have hunits : units w = k * 2 ^ 149 := by
    rw [realOf, div_eq_iff (by positivity)] at h
    exact_mod_cast h
  have habs : (units w).natAbs = mag w := by
    unfold units
    split <;> simp
  rw [← habs, hunits, Int.natAbs_mul]
  rfl

/-- The product of a normal word with a word of magnitude 1 or more is neither a zero nor a subnormal. -/
theorem one_le_expField_mul32 {q f : Word} (hq : isNormal q = true) (hf : isFinite f = true) (hmag : 2 ^ 149 ≤ mag f) :
    1 ≤ expField (mul32 q f) := by
  have hf1 : 1 ≤ expField f :=
    one_le_expField_of_le_mag ((Nat.pow_le_pow_right (by decide) (by decide)).trans hmag)
  have hq1 : 2 ^ 23 ≤ mag q := le_mag_of_one_le_expField ((isNormal_iff q).1 hq).2
  have hround := one_le_expField_rn32 (signBit q != signBit f) (Nat.two_pow_pos 149) (Nat.mul_le_mul hq1 hmag)
  rw [mul32, daz_of_isNormal hq, daz_of_one_le_expField hf1, mulDazed_of_nonzero (isFinite_of_isNormal hq) hf
    (isZero_of_isNormal hq) (isZero_of_one_le_expField hf1), ftz, daz_of_one_le_expField hround]
  exact hround

theorem levelOf_truncInt_ne_negZero {q t : Word} (hq : isNormal q = true) (ht : isFinite t = true) :
    levelOf q (truncInt t) ≠ 0x80000000#32 := by
  by_cases h0 : truncInt t = 0
  · rw [h0, levelOf_zero]
    decide
  · obtain ⟨hfin, hval⟩ := f32OfInt_truncInt_exact ht
    have hmag : 2 ^ 149 ≤ mag (f32OfInt (truncInt t)) := by
      rw [mag_of_realOf_eq_intCast hval]
      exact Nat.le_mul_of_pos_left _ (Int.natAbs_pos.2 h0)
    rw [levelOf_of_ne_zero _ h0]
    intro hneg
    have hexp := one_le_expField_mul32 hq hfin hmag
    rw [hneg] at hexp
    exact absurd hexp (by decide)

theorem quantizeBy_ne_negZero {q : Word} (hq : isNormal q = true) (x : Word) : quantizeBy q x ≠ 0x80000000#32 := by
  rcases isNaN_or_isInf_or_isFinite (div32 x q) with h | h | h
  · rw [quantizeBy_of_isNaN h]
    decide
  · rw [quantizeBy_of_isInf h]
    intro hneg
    rw [hneg] at h
    exact absurd h (by decide)
  · rw [quantizeBy_of_isFinite h]
    exact levelOf_truncInt_ne_negZero hq h

/-- Settles O32: the classes of the operand give the classes of the quotient; a level is +0 or at least one quantum. -/
theorem quantizeOfSpecialValues : Obligations.QuantizeOfSpecialValues := by
  intro x b hb hb24
  have hq := isNormal_qtab hb hb24
  exact ⟨fun hx => quantizeBy_of_isNaN (div32_of_isNaN hx ▸ by decide),
    quantizeBy_of_isInf_operand hq (signBit_qtab b), quantizeBy_of_isZero_or_isSubnormal hq,
    quantizeBy_ne_negZero hq x, (canonical_quantizeBy _ x).2⟩

/-! ### Odd symmetry (R136(a)) -/

theorem opposite_levelOf (q : Word) {k : Int} (hk : k ≠ 0) : Opposite (levelOf q k) (levelOf q (-k)) := by
  rw [levelOf_of_ne_zero q hk, levelOf_of_ne_zero q (neg_ne_zero.2 hk), f32OfInt_neg hk]
  exact opposite_mul32 _ _

/-- The quotients differ in their sign or are both QNAN, and so do the levels of their truncations but for +0. -/
theorem quantizeBy_flipSign (q x : Word) :
    (quantizeBy q x = 0x00000000#32 ∧ quantizeBy q (flipSign x) = 0x00000000#32) ∨
      Opposite (quantizeBy q x) (quantizeBy q (flipSign x)) := by
  rcases opposite_div32 x q with ⟨hx, hx'⟩ | ⟨hnan, hflip⟩
  · right
    rw [quantizeBy_of_isNaN (hx ▸ by decide), quantizeBy_of_isNaN (hx' ▸ by decide)]
    exact opposite_qnan
  rcases isNaN_or_isInf_or_isFinite (div32 x q) with h | h | h
  · exact absurd h (by simp [hnan])
  · right
    rw [quantizeBy_of_isInf h, quantizeBy_of_isInf (by rwa [hflip, isInf_flipSign]), hflip]
    exact Or.inr ⟨hnan, rfl⟩
  · rw [quantizeBy_of_isFinite h, quantizeBy_of_isFinite (by rwa [hflip, isFinite_flipSign]), hflip, truncInt_flipSign]
    by_cases h0 : truncInt (div32 x q) = 0
    · left
      rw [h0, neg_zero]
      exact ⟨levelOf_zero q, levelOf_zero q⟩
    · exact Or.inr (opposite_levelOf q h0)

/-- Settles O33: a result that is neither +0 nor QNAN flips; +0 does not flip since no result is −0. -/
theorem quantizeIsOdd : Obligations.QuantizeIsOdd := by
  intro x b hb hb24
  change (_ → _ → quantizeBy _ (flipSign x) = flipSign _) ∧ (_ → quantizeBy _ (flipSign x) = _) ∧
    (_ → quantizeBy _ (flipSign x) = _)
  rcases quantizeBy_flipSign (qtab b) x with ⟨h, h'⟩ | ⟨h, h'⟩ | ⟨hnan, h'⟩
  · exact ⟨fun hne => absurd h hne, fun _ => h', fun hq => absurd (h.symm.trans hq) (by decide)⟩
  · exact ⟨fun _ hne => absurd h hne, fun h0 => absurd (h.symm.trans h0) (by decide), fun _ => h'⟩
  · refine ⟨fun _ _ => h', fun h0 => ?_, fun hq => ?_⟩
    · rw [h0] at h'
      exact absurd h' (quantizeBy_ne_negZero (isNormal_qtab hb hb24) _)
    · rw [hq] at hnan
      exact absurd hnan (by decide)

/-! ### The levels at b = 2 (R136(d)) -/

theorem mag_qtab_two : mag (qtab 2) = 0xAAAAAB * 2 ^ 124 := by decide +kernel

theorem mag_le_one_iff (x : Word) : mag x ≤ 2 ^ 149 ↔ -1 ≤ realOf x ∧ realOf x ≤ 1 := by
  rw [← not_lt, ← not_lt, ← not_lt, one_lt_realOf_iff, realOf_lt_neg_one_iff]
  cases signBit x <;> simp

theorem mag_lt_one_iff {x : Word} (hs : signBit x = false) : mag x < 2 ^ 149 ↔ realOf x < 1 := by
  rw [realOf_of_signBit_false hs, div_lt_one (by positivity)]
  norm_cast

theorem realOf_nonneg {x : Word} (hs : signBit x = false) : 0 ≤ realOf x := by
  rw [realOf_of_signBit_false hs]
  positivity

/-- A negative word of a value from 0 on is −0. -/
theorem isZero_of_realOf_nonneg {x : Word} (hs : signBit x = true) (h : 0 ≤ realOf x) : isZero x = true := by
  rw [← realOf_eq_zero_iff]
  refine le_antisymm ?_ h
  rw [realOf_of_signBit_true hs]
  exact neg_nonpos.2 (by positivity)

/-- The largest magnitude below 1 is 1 − 2^−24. -/
theorem mag_le_of_lt_one {x : Word} (h : mag x < 2 ^ 149) : mag x ≤ (2 ^ 24 - 1) * 2 ^ 125 := by
  obtain ⟨k, n, hk, hn, -, hmag⟩ := mag_eq_quanta x
  have hk125 : k ≤ 125 := by
    refine hk.elim (fun h0 => h0 ▸ Nat.zero_le _) fun hlead => ?_
    have hpow : 2 ^ (23 + k) < 2 ^ 149 := calc
      2 ^ (23 + k) = 2 ^ 23 * 2 ^ k := pow_add ..
      _ ≤ n * 2 ^ k := Nat.mul_le_mul_right _ hlead
      _ < 2 ^ 149 := hmag ▸ h
    have := (Nat.pow_lt_pow_iff_right (by decide)).1 hpow
    omega
  rw [hmag]
  exact Nat.mul_le_mul (by omega) (Nat.pow_le_pow_right (by decide) hk125)

/-- A quotient of at most n quanta of 2^127 units has a truncation of at most n/2^22. -/
theorem quantizeBy_eq_levelOf {q x : Word} (hq : isNormal q = true) (hx : isFinite x = true) {n : Nat}
    (hlo : 2 ^ 23 ≤ n) (hn : n < 2 ^ 24) (hle : mag x * 2 ^ 149 ≤ n * 2 ^ 127 * mag q) :
    ∃ k : Int, quantizeBy q x = levelOf q k ∧ k.natAbs ≤ n / 2 ^ 22 ∧ (signBit x = signBit q → 0 ≤ k) := by
  obtain ⟨hfin, hmag⟩ := mag_div32_le hq hx hlo hn (by omega) hle
  refine ⟨_, quantizeBy_of_isFinite hfin, ?_, fun hsame => ?_⟩
  · calc (truncInt (div32 x q)).natAbs = mag (div32 x q) / 2 ^ 149 := natAbs_truncInt _
      _ ≤ n * 2 ^ 127 / 2 ^ 149 := Nat.div_le_div_right hmag
      _ = n / 2 ^ 22 := by
        rw [show 149 = 22 + 127 from rfl, pow_add, Nat.mul_div_mul_right _ _ (Nat.two_pow_pos 127)]
  · rw [truncInt, signBit_div32 hq hx, hsame, bne_self_eq_false]
    exact Int.natCast_nonneg _

/-- Up to 1 the quotient by QTAB[2] is at most 3. -/
theorem quantizeBy_qtab_two_of_le_one {x : Word} (hx : isFinite x = true) (hmag : mag x ≤ 2 ^ 149) :
    ∃ k : Int, quantizeBy (qtab 2) x = levelOf (qtab 2) k ∧ k.natAbs ≤ 3 := by
  have hle : mag x * 2 ^ 149 ≤ 3 * 2 ^ 22 * 2 ^ 127 * mag (qtab 2) := by
    rw [mag_qtab_two]
    exact (Nat.mul_le_mul_right (2 ^ 149) hmag).trans (by norm_num)
  obtain ⟨k, hlevel, hk, -⟩ :=
    quantizeBy_eq_levelOf (isNormal_qtab le_rfl (by decide)) hx (n := 3 * 2 ^ 22) (by decide) (by decide) hle
  exact ⟨k, hlevel, hk⟩

/-- Below 1 the quotient by QTAB[2] is at most 3 − 2^−22. -/
theorem quantizeBy_qtab_two_of_lt_one {x : Word} (hx : isFinite x = true) (hpos : signBit x = false)
    (hmag : mag x < 2 ^ 149) : ∃ k : Int, quantizeBy (qtab 2) x = levelOf (qtab 2) k ∧ 0 ≤ k ∧ k ≤ 2 := by
  have hle : mag x * 2 ^ 149 ≤ (3 * 2 ^ 22 - 1) * 2 ^ 127 * mag (qtab 2) := by
    rw [mag_qtab_two]
    exact (Nat.mul_le_mul_right (2 ^ 149) (mag_le_of_lt_one hmag)).trans (by norm_num)
  obtain ⟨k, hlevel, hk, hk0⟩ :=
    quantizeBy_eq_levelOf (isNormal_qtab le_rfl (by decide)) hx (n := 3 * 2 ^ 22 - 1) (by decide) (by decide) hle
  have hnonneg := hk0 (hpos.trans (signBit_qtab 2).symm)
  exact ⟨k, hlevel, hnonneg, by omega⟩

/-- The levels of R136(d), from that of 3 quanta down. -/
theorem levelOf_qtab_two : [3, -3, 2, -2, 1, -1, 0].map (levelOf (qtab 2)) =
    [0x3F800000#32, 0xBF800000#32, 0x3F2AAAAB#32, 0xBF2AAAAB#32, 0x3EAAAAAB#32, 0xBEAAAAAB#32, 0x00000000#32] := by
  decide +kernel

theorem levelOf_qtab_two_below_one :
    [0, 1, 2].map (levelOf (qtab 2)) = [0x00000000#32, 0x3EAAAAAB#32, 0x3F2AAAAB#32] := by
  decide +kernel

/-- Each level is reached, from itself (R136(b)). -/
theorem levels_of_two_are_fixed :
    ∀ w ∈ [0x3F800000#32, 0xBF800000#32, 0x3F2AAAAB#32, 0xBF2AAAAB#32, 0x3EAAAAAB#32, 0xBEAAAAAB#32, 0x00000000#32],
      isFinite w = true ∧ mag w ≤ 2 ^ 149 ∧ quantizeBy (qtab 2) w = w :=
  List.forall_iff_forall_mem.1 (by decide +kernel)

theorem levels_of_two_below_one_are_fixed : ∀ w ∈ [0x00000000#32, 0x3EAAAAAB#32, 0x3F2AAAAB#32],
    isFinite w = true ∧ signBit w = false ∧ mag w < 2 ^ 149 ∧ quantizeBy (qtab 2) w = w :=
  List.forall_iff_forall_mem.1 (by decide +kernel)

/-- Settles O34: the quotient by QTAB[2] truncates to −3..3 on [−1, 1] and to 0..2 on [0, 1); the levels are
evaluated. -/
theorem twoBitQuantizeLevels : Obligations.TwoBitQuantizeLevels := by
  refine ⟨fun w => ⟨?_, fun hw => ?_⟩, fun w => ⟨?_, fun hw => ?_⟩⟩
  · rintro ⟨x, hx, hlo, hhi, rfl⟩
    obtain ⟨k, hlevel, hk⟩ := quantizeBy_qtab_two_of_le_one hx ((mag_le_one_iff x).2 ⟨hlo, hhi⟩)
    rw [hlevel, ← levelOf_qtab_two]
    refine List.mem_map_of_mem ?_
    simp only [List.mem_cons, List.not_mem_nil, or_false]
    omega
  · obtain ⟨hfin, hmag, hfixed⟩ := levels_of_two_are_fixed w hw
    obtain ⟨hlo, hhi⟩ := (mag_le_one_iff w).1 hmag
    exact ⟨w, hfin, hlo, hhi, hfixed⟩
  · rintro ⟨x, hx, hlo, hhi, rfl⟩
    cases hs : signBit x
    case false =>
      obtain ⟨k, hlevel, hk0, hk2⟩ := quantizeBy_qtab_two_of_lt_one hx hs ((mag_lt_one_iff hs).2 hhi)
      rw [hlevel, ← levelOf_qtab_two_below_one]
      refine List.mem_map_of_mem ?_
      simp only [List.mem_cons, List.not_mem_nil, or_false]
      omega
    case true =>
      have hzero := isZero_of_realOf_nonneg hs hlo
      rw [quantizeBy_of_isZero_or_isSubnormal (isNormal_qtab le_rfl (by decide)) (Or.inl hzero)]
      exact List.mem_cons_self
  · obtain ⟨hfin, hs, hmag, hfixed⟩ := levels_of_two_below_one_are_fixed w hw
    exact ⟨w, hfin, realOf_nonneg hs, (mag_lt_one_iff hs).1 hmag, hfixed⟩

end Sys2Proof.Proofs

/-! The Bitmask stage (44_bitmask_distorter.md R150 to R152): the loop's closed form, and why clearing bits keeps a
finite word finite. -/

namespace Sys2Proof.Proofs

open Sys2Proof.Machine Sys2Proof.Laws

/-! ### The loop of R150 in closed form (R151) -/

/-- The body of R150's loop: bit k of r is cleared if it is active. -/
def clearIfActive (v r : Word) (k : Fin 32) : Word :=
  if v.getLsbD k.val then r &&& ~~~(bitMask k.val) else r

theorem getLsbD_clearIfActive (v r : Word) (j k : Fin 32) :
    (clearIfActive v r k).getLsbD j.val = (r.getLsbD j.val && !(decide (j = k) && v.getLsbD j.val)) := by
  unfold clearIfActive
  split
  next hactive =>
    rw [BitVec.getLsbD_and, BitVec.getLsbD_not, getLsbD_bitMask j.isLt]
    rcases eq_or_ne j k with rfl | hjk
    · simp [hactive]
    · simp [hjk, Fin.val_ne_of_ne hjk]
  next hinactive =>
    rcases eq_or_ne j k with rfl | hjk
    · rw [Bool.eq_false_of_not_eq_true hinactive, Bool.and_false, Bool.not_false, Bool.and_true]
    · simp [hjk]

/-- Whatever the list, bit j is cleared exactly if it is active and in the list: neither order nor repetition counts. -/
theorem getLsbD_foldl_clearIfActive (v : Word) (ks : List (Fin 32)) (y : Word) (j : Fin 32) :
    (ks.foldl (clearIfActive v) y).getLsbD j.val = (y.getLsbD j.val && !(decide (j ∈ ks) && v.getLsbD j.val)) := by
  induction ks generalizing y with
  | nil => simp
  | cons k ks ih =>
    rw [List.foldl_cons, ih, getLsbD_clearIfActive]
    by_cases hjk : j = k <;> cases v.getLsbD j.val <;> simp [hjk]

theorem foldl_clearIfActive_of_forall_mem (v y : Word) {ks : List (Fin 32)} (hks : ∀ k, k ∈ ks) :
    ks.foldl (clearIfActive v) y = y &&& ~~~v :=
  BitVec.eq_of_getLsbD_eq fun j hj => by
    rw [getLsbD_foldl_clearIfActive v ks y ⟨j, hj⟩, decide_eq_true (hks _), Bool.true_and, BitVec.getLsbD_and,
      BitVec.getLsbD_not, decide_eq_true hj, Bool.true_and]

theorem clearActive_eq (v y : Word) : clearActive v y = y &&& ~~~v :=
  foldl_clearIfActive_of_forall_mem v y List.mem_finRange

theorem bitmask_enabled {cfg : Snapshot} (h : cfg.masksEnabled ≠ 0#32) (y : Word) :
    bitmask cfg y = y &&& ~~~cfg.maskVec :=
  (if_neg h).trans (clearActive_eq cfg.maskVec y)

theorem bitmask_disabled {cfg : Snapshot} (h : cfg.masksEnabled = 0#32) (y : Word) : bitmask cfg y = y := if_pos h

/-- Settles O37: each bit is cleared at its own index alone, so only which indices are met counts. -/
theorem bitmaskIsAndNotInAnyOrder : Obligations.BitmaskIsAndNotInAnyOrder :=
  ⟨fun v y _ hks => foldl_clearIfActive_of_forall_mem v y hks, fun _ y h => bitmask_enabled h y,
    fun _ y h => bitmask_disabled h y⟩

/-! ### Clearing bits keeps a finite word finite (R152) -/

theorem expField_and_le (x m : Word) : expField (x &&& m) ≤ expField x := by
  rw [expField, BitVec.extractLsb'_and, BitVec.toNat_and]
  exact Nat.and_le_left

theorem isFinite_iff_expField_lt (x : Word) : isFinite x = true ↔ expField x < 255 := by
  have := expField_lt x
  rw [isFinite, bne_iff_ne]
  omega

theorem isFinite_and {x : Word} (hx : isFinite x = true) (m : Word) : isFinite (x &&& m) = true :=
  (isFinite_iff_expField_lt _).2 ((expField_and_le x m).trans_lt ((isFinite_iff_expField_lt x).1 hx))

/-- Settles O38: both stages are the AND of their operand with a mask, or the identity. -/
theorem bitStagesKeepFiniteValuesFinite : Obligations.BitStagesKeepFiniteValuesFinite := by
  refine ⟨fun cfg y hy => ?_, fun x b hb _ hx => truncate_eq_and_tmask x hb ▸ isFinite_and hx (tmask b)⟩
  by_cases hmasks : cfg.masksEnabled = 0#32
  · rwa [bitmask_disabled hmasks]
  · rw [bitmask_enabled hmasks]
    exact isFinite_and hy _

end Sys2Proof.Proofs

/-! Proofs of the statements of 45_mixer.md. This part: CosPi32 answers a word nearest the cosine (R14, R20), since
`nearestWord` chooses between the two words around it. So the answer does not rise with the angle, and lies within 2^−24
of the cosine. -/

namespace Sys2Proof.Proofs

open Sys2Proof.Machine Sys2Proof.Laws

/-! ### Adjoining words (R12) -/

/-- Between adjoining words below the sign lies one quantum: one unit, or at most the 2^23rd part of the lower word. -/
theorem mag_succ {w : ℕ} (hw : w + 1 < 2 ^ 31) :
    ∃ k, mag (BitVec.ofNat 32 (w + 1)) = mag (BitVec.ofNat 32 w) + 2 ^ k ∧
      (k = 0 ∨ 2 ^ (23 + k) ≤ mag (BitVec.ofNat 32 w)) := by
  obtain ⟨k, n, hk, hn, hword, hmag⟩ := mag_eq_quanta (BitVec.ofNat 32 w)
  rw [BitVec.toNat_ofNat, Nat.mod_eq_of_lt (by omega), Nat.mod_eq_of_lt (by omega)] at hword
  have hsucc : mag (BitVec.ofNat 32 (w + 1)) = (n + 1) * 2 ^ k := by
    have := mag_signed false (k := k) (n := n + 1) (by omega) (by omega) (by omega)
    rwa [if_neg Bool.false_ne_true, Nat.add_zero, ← Nat.add_assoc, ← hword] at this
  refine ⟨k, by rw [hsucc, hmag, Nat.add_mul, Nat.one_mul], hk.imp_right fun hlead => ?_⟩
  rw [hmag, pow_add]
  exact Nat.mul_le_mul_right _ hlead

theorem mag_le_mag {w w' : ℕ} (hle : w ≤ w') (hw' : w' < 2 ^ 31) :
    mag (BitVec.ofNat 32 w) ≤ mag (BitVec.ofNat 32 w') := by
  induction w', hle using Nat.le_induction with
  | base => exact le_rfl
  | succ w' _ ih =>
    obtain ⟨k, hk, -⟩ := mag_succ hw'
    exact (ih (by omega)).trans (hk ▸ Nat.le_add_right _ _)

/-- The value of the word of number `w` below the sign (R12). -/
noncomputable def wordValue (w : ℕ) : ℝ := (mag (BitVec.ofNat 32 w) : ℝ) / 2 ^ 149

theorem wordValue_toNat {u : Word} (hu : signBit u = false) : wordValue u.toNat = ((realOf u : ℚ) : ℝ) := by
  rw [wordValue, BitVec.ofNat_toNat, BitVec.setWidth_eq, realOf_of_signBit_false hu]
  push_cast
  rfl

theorem wordValue_le_wordValue {w w' : ℕ} (hle : w ≤ w') (hw' : w' < 2 ^ 31) : wordValue w ≤ wordValue w' :=
  div_le_div_of_nonneg_right (by exact_mod_cast mag_le_mag hle hw') (by positivity)

/-- Up to 1 adjoining words are at most 2^−23 apart. -/
theorem wordValue_succ_sub_le {w : ℕ} (hw : w + 1 < 2 ^ 31) (hle : wordValue w ≤ 1) :
    wordValue (w + 1) - wordValue w ≤ 1 / 2 ^ 23 := by
  obtain ⟨k, hsucc, hk⟩ := mag_succ hw
  have hmag : mag (BitVec.ofNat 32 w) ≤ 2 ^ 149 := by
    rw [wordValue, div_le_one (by positivity)] at hle
    exact_mod_cast hle
  have hk126 : k ≤ 126 := by
    refine hk.elim (fun h0 => h0 ▸ Nat.zero_le _) fun hlead => ?_
    have := (Nat.pow_le_pow_iff_right (by decide)).1 (hlead.trans hmag)
    omega
  calc wordValue (w + 1) - wordValue w = 2 ^ k / 2 ^ 149 := by
        rw [wordValue, wordValue, hsucc]
        push_cast
        ring
    _ ≤ 2 ^ 126 / 2 ^ 149 :=
        div_le_div_of_nonneg_right (pow_le_pow_right₀ one_le_two hk126) (by positivity)
    _ = 1 / 2 ^ 23 := by norm_num

/-! ### The nearer of two adjoining words -/

/-- `v` is the nearer of the two words `w` and `w + 1` around x. -/
structure NearerWord (x : ℝ) (w v : ℕ) : Prop where
  lt : w < 2 ^ 30
  le_succ : v ≤ w + 1
  low : wordValue w ≤ x
  high : x < wordValue (w + 1)
  near_low : |x - wordValue v| ≤ x - wordValue w
  near_high : |x - wordValue v| ≤ wordValue (w + 1) - x

namespace NearerWord

variable {x : ℝ} {w v : ℕ} (h : NearerWord x w v)
include h

/-- No other word is nearer: every word lies beyond one of the two. -/
theorem nearest {u : ℕ} (hu : u < 2 ^ 31) : |x - wordValue v| ≤ |x - wordValue u| := by
  have hw := h.lt
  rcases Nat.lt_or_ge w u with hlt | hge
  · have := wordValue_le_wordValue hlt hu
    exact h.near_high.trans (le_trans (by linarith) (neg_le_abs _))
  · have := wordValue_le_wordValue hge (by omega)
    exact h.near_low.trans (le_trans (by linarith) (le_abs_self _))

/-- Half the distance of the two words is the most that rounding moves x. -/
theorem abs_sub_le (hx : x ≤ 1) : |x - wordValue v| ≤ 1 / 2 ^ 24 := by
  have hw := h.lt
  have hgap := wordValue_succ_sub_le (w := w) (by omega) (h.low.trans hx)
  have hlow := h.near_low
  have hhigh := h.near_high
  norm_num at hgap ⊢
  linarith

end NearerWord

/-- The comparison with the middle of the two words around x decides for the nearer. -/
theorem nearestWord_nearer {cmp : ℕ → Ordering} {x : ℝ} (hcmp : ∀ N, Compares (cmp N) x ((N : ℝ) / 2 ^ 150))
    (hx0 : 0 ≤ x) (hx1 : x ≤ 1) : ∃ w v, nearestWord cmp = BitVec.ofNat 32 v ∧ NearerWord x w v := by
  have hbottom : mag (BitVec.ofNat 32 0) = 0 := by decide
  have htop : mag (BitVec.ofNat 32 (0 + 2 ^ 30)) = 2 ^ 150 := by decide +kernel
  obtain ⟨hlow, hhigh, hlt⟩ := floorWord_spec hcmp 30 0 (by simpa [hbottom] using hx0) (by
    rw [htop]
    norm_num
    linarith)
  have hmid := hcmp (mag (BitVec.ofNat 32 (floorWord cmp 30 0)) + mag (BitVec.ofNat 32 (floorWord cmp 30 0 + 1)))
  rw [nearestWord]
  generalize floorWord cmp 30 0 = w at *
  replace hlow : wordValue w ≤ x := hlow
  replace hhigh : x < wordValue (w + 1) := hhigh
  have hvalue : ((mag (BitVec.ofNat 32 w) + mag (BitVec.ofNat 32 (w + 1)) : ℕ) : ℝ) / 2 ^ 150 =
      (wordValue w + wordValue (w + 1)) / 2 := by
    rw [wordValue, wordValue]
    push_cast
    ring
  rw [hvalue] at hmid
  have hbelow : |x - wordValue w| = x - wordValue w := abs_of_nonneg (by linarith)
  have habove : |x - wordValue (w + 1)| = wordValue (w + 1) - x := by
    rw [abs_sub_comm]
    exact abs_of_nonneg (by linarith)
  have chooseLow (hhalf : x ≤ (wordValue w + wordValue (w + 1)) / 2) : NearerWord x w w :=
    ⟨by omega, by omega, hlow, hhigh, hbelow.le, hbelow.le.trans (by linarith)⟩
  have chooseHigh (hhalf : (wordValue w + wordValue (w + 1)) / 2 ≤ x) : NearerWord x w (w + 1) :=
    ⟨by omega, by omega, hlow, hhigh, habove.le.trans (by linarith), habove.le⟩
  split
  next ho =>
    rw [ho] at hmid
    exact ⟨w, w, rfl, chooseLow (le_of_lt hmid)⟩
  next ho =>
    rw [ho] at hmid
    exact ⟨w, w + 1, rfl, chooseHigh (le_of_lt hmid)⟩
  next ho =>
    rw [ho] at hmid
    rcases Nat.mod_two_eq_zero_or_one w with hpar | hpar
    · exact ⟨w, w, by rw [hpar, Nat.add_zero], chooseLow (le_of_eq hmid)⟩
    · exact ⟨w, w + 1, by rw [hpar], chooseHigh (le_of_eq hmid.symm)⟩

/-! ### CosPi32 -/

section CosPi32

variable {a : ℕ} (ha : a ≤ 2 ^ 150)
include ha

theorem cosPi32_nearer : ∃ w v, cosPi32 a = BitVec.ofNat 32 v ∧ NearerWord (cosAt 150 a) w v :=
  nearestWord_nearer (cosCompare_spec ha) (cosAt_nonneg ha) (Real.cos_le_one _)

theorem toNat_cosPi32_le : (cosPi32 a).toNat ≤ 2 ^ 30 := by
  obtain ⟨w, v, hv, h⟩ := cosPi32_nearer ha
  have hw := h.lt
  have hle := h.le_succ
  rw [hv, BitVec.toNat_ofNat]
  omega

theorem signBit_cosPi32 : signBit (cosPi32 a) = false := by
  have := toNat_cosPi32_le ha
  rw [signBit_eq, decide_eq_false_iff_not]
  omega

theorem isFinite_cosPi32 : isFinite (cosPi32 a) = true := by
  have := toNat_cosPi32_le ha
  rw [isFinite, bne_iff_ne, expField_eq]
  omega

theorem wordValue_toNat_cosPi32 : wordValue (cosPi32 a).toNat = ((realOf (cosPi32 a) : ℚ) : ℝ) :=
  wordValue_toNat (signBit_cosPi32 ha)

theorem cosPi32_nearer_toNat : ∃ w, NearerWord (cosAt 150 a) w (cosPi32 a).toNat := by
  obtain ⟨w, v, hv, h⟩ := cosPi32_nearer ha
  have hw := h.lt
  have hle := h.le_succ
  rw [hv, BitVec.toNat_ofNat, Nat.mod_eq_of_lt (by omega)]
  exact ⟨w, h⟩

/-- No word without a sign is nearer the cosine than CosPi32's. -/
theorem cosPi32_nearest {u : Word} (hu : signBit u = false) :
    |cosAt 150 a - (realOf (cosPi32 a) : ℚ)| ≤ |cosAt 150 a - (realOf u : ℚ)| := by
  obtain ⟨w, h⟩ := cosPi32_nearer_toNat ha
  have hlt : u.toNat < 2 ^ 31 := by rwa [signBit_eq, decide_eq_false_iff_not, not_le] at hu
  have := h.nearest hlt
  rwa [wordValue_toNat hu, wordValue_toNat_cosPi32 ha] at this

/-- Rounding does not pass a word that lies above the cosine. -/
theorem realOf_cosPi32_le {u : Word} (hu : signBit u = false) (hle : cosAt 150 a ≤ (realOf u : ℚ)) :
    realOf (cosPi32 a) ≤ realOf u := by
  have hnear := cosPi32_nearest ha hu
  rw [abs_sub_comm _ ((realOf u : ℚ) : ℝ), abs_of_nonneg (sub_nonneg.2 hle)] at hnear
  exact_mod_cast (by linarith [neg_le_abs (cosAt 150 a - (realOf (cosPi32 a) : ℚ))] :
    ((realOf (cosPi32 a) : ℚ) : ℝ) ≤ (realOf u : ℚ))

/-- Rounding does not pass a word that lies below the cosine. -/
theorem le_realOf_cosPi32 {u : Word} (hu : signBit u = false) (hle : ((realOf u : ℚ) : ℝ) ≤ cosAt 150 a) :
    realOf u ≤ realOf (cosPi32 a) := by
  have hnear := cosPi32_nearest ha hu
  rw [abs_of_nonneg (sub_nonneg.2 hle)] at hnear
  exact_mod_cast (by linarith [le_abs_self (cosAt 150 a - (realOf (cosPi32 a) : ℚ))] :
    ((realOf u : ℚ) : ℝ) ≤ (realOf (cosPi32 a) : ℚ))

theorem abs_cosAt_sub_cosPi32_le : |cosAt 150 a - (realOf (cosPi32 a) : ℚ)| ≤ 1 / 2 ^ 24 := by
  obtain ⟨w, h⟩ := cosPi32_nearer_toNat ha
  have := h.abs_sub_le (Real.cos_le_one _)
  rwa [wordValue_toNat_cosPi32 ha] at this

end CosPi32

theorem cosAt_lt_cosAt {n a b : ℕ} (hab : a < b) (hb : b ≤ 2 ^ n) : cosAt n b < cosAt n a := by
  have hpi := Real.pi_pos
  have hab' : (a : ℝ) < b := by exact_mod_cast hab
  have hb' : (b : ℝ) ≤ 2 ^ n := by exact_mod_cast hb
  refine Real.cos_lt_cos_of_nonneg_of_le_pi (by positivity) ?_ ?_
  · rw [div_le_iff₀ (by positivity), pow_succ]
    nlinarith
  · gcongr

/-- A number no farther from p than from a larger q lies up to their middle. -/
theorem le_middle_of_abs_sub_le {x p q : ℝ} (hpq : p < q) (h : |x - p| ≤ |x - q|) : x ≤ (p + q) / 2 := by
  have hsq := sq_le_sq.2 h
  nlinarith

/-- A number no farther from q than from a smaller p lies from their middle on. -/
theorem middle_le_of_abs_sub_le {x p q : ℝ} (hpq : p < q) (h : |x - q| ≤ |x - p|) : (p + q) / 2 ≤ x := by
  have hsq := sq_le_sq.2 h
  nlinarith

/-- Rounding to the nearest keeps the order: two words in the wrong order would have their middle between the cosines. -/
theorem realOf_cosPi32_antitone {a b : ℕ} (hab : a ≤ b) (hb : b ≤ 2 ^ 150) :
    realOf (cosPi32 b) ≤ realOf (cosPi32 a) := by
  obtain rfl | hlt := hab.eq_or_lt
  · exact le_rfl
  by_contra hwrong
  have hpq : ((realOf (cosPi32 a) : ℚ) : ℝ) < (realOf (cosPi32 b) : ℚ) := by exact_mod_cast not_le.1 hwrong
  have hxa := le_middle_of_abs_sub_le hpq (cosPi32_nearest (hab.trans hb) (signBit_cosPi32 hb))
  have hxb := middle_le_of_abs_sub_le hpq (cosPi32_nearest hb (signBit_cosPi32 (hab.trans hb)))
  exact absurd (cosAt_lt_cosAt hlt hb) (not_lt.2 (hxa.trans hxb))

end Sys2Proof.Proofs

/-! The gain pair (45_mixer.md R160, R161, R164): the wet gain of m is the dry gain of −m, so each property of the dry gain is
one of the wet gain. -/

namespace Sys2Proof.Proofs

open Sys2Proof.Machine Sys2Proof.Laws

/-! ### The angle of the opposite mix (R161(c)) -/

theorem units_flipSign (w : Word) : units (flipSign w) = -units w := by
  rw [units, units, mag_flipSign, signBit_flipSign]
  cases signBit w <;> simp

theorem mixLegal_flipSign {m : Word} (h : MixLegal m) : MixLegal (flipSign m) :=
  mixLegal_of_mag_le_one ((mag_flipSign m).le.trans (mag_le_one_of_mixLegal h))

theorem mixAngle_flipSign {m : Word} (h : MixLegal m) : mixAngle (flipSign m) = 2 ^ 150 - mixAngle m := by
  have := units_bounds_of_mixLegal h
  rw [mixAngle, mixAngle, units_flipSign]
  omega

theorem wetGain_eq_dryGain {m : Word} (h : MixLegal m) : wetGain m = dryGain (flipSign m) := by
  rw [dryGain, mixAngle_flipSign h, wetGain, sinPi32, angleBits]

/-- Settles O27: the angle of −m is π/2 less that of m. -/
theorem gainsAreSymmetric : Obligations.GainsAreSymmetric := fun _ => wetGain_eq_dryGain

/-! ### The ends (R161(a)) -/

theorem dryGain_at_ends : [0xBF800000#32, 0x3F800000#32, 0xBF7FFFFF#32, 0x3F7FFFFF#32].map dryGain =
    [0x3F800000#32, 0x00000000#32, 0x3F800000#32, 0x33490FDB#32] := by decide +kernel

/-- Settles O25: the four dry gains are evaluated, and each wet gain is one of them. -/
theorem gainsAtTheEnds : Obligations.GainsAtTheEnds := by
  have hdry := dryGain_at_ends
  simp only [List.map_cons, List.map_nil, List.cons.injEq, and_true] at hdry
  obtain ⟨hmin, hmax, hmin', hmax'⟩ := hdry
  have wet (m : Word) (h : MixLegal m) {m' g : Word} (hg : dryGain m' = g) (hm : flipSign m = m') : wetGain m = g := by
    rw [wetGain_eq_dryGain h, hm, hg]
  exact ⟨Prod.ext (wet 0xBF800000#32 (by decide) hmax (by decide)) hmin,
    Prod.ext (wet 0x3F800000#32 (by decide) hmin (by decide)) hmax,
    Prod.ext (wet 0xBF7FFFFF#32 (by decide) hmax' (by decide)) hmin',
    Prod.ext (wet 0x3F7FFFFF#32 (by decide) hmin' (by decide)) hmax'⟩

/-! ### The range (R161(b)) -/

/-- A mix value is +1.0 or at least 2^−24 below it, so its angle is π/2 or at least 2^125 units below it. -/
theorem mixAngle_eq_or_add_le {m : Word} (h : MixLegal m) : mixAngle m = 2 ^ 150 ∨ mixAngle m + 2 ^ 125 ≤ 2 ^ 150 := by
  unfold mixAngle units
  rcases (mag_le_one_of_mixLegal h).eq_or_lt with heq | hlt
  · rw [heq]
    split
    · exact Or.inr (by omega)
    · exact Or.inl (by omega)
  · have := mag_le_of_lt_one hlt
    split <;> exact Or.inr (by omega)

/-- On [0, π/2] the cosine lies above its chord. -/
theorem one_sub_le_cosAt {n a : ℕ} (h : a ≤ 2 ^ n) : 1 - (a : ℝ) / 2 ^ n ≤ cosAt n a := by
  have hpi := Real.pi_pos
  have h' : (a : ℝ) ≤ 2 ^ n := by exact_mod_cast h
  have hchord := Real.one_sub_mul_le_cos (x := Real.pi * a / 2 ^ (n + 1)) (by positivity) (by
    rw [div_le_div_iff₀ (by positivity) two_pos, pow_succ]
    nlinarith)
  have hscale : 2 / Real.pi * (Real.pi * a / 2 ^ (n + 1)) = a / 2 ^ n := by
    rw [pow_succ]
    field_simp
  rwa [hscale] at hchord

/-- From 2^−126 on, the smallest normal value, CosPi32 answers no subnormal. -/
theorem isSubnormal_cosPi32 {a : ℕ} (ha : a ≤ 2 ^ 150) (hcos : 1 / 2 ^ 126 ≤ cosAt 150 a) :
    isSubnormal (cosPi32 a) = false := by
  have hsmallest : realOf 0x00800000#32 = 1 / 2 ^ 126 := by decide +kernel
  have hmag : mag 0x00800000#32 = 2 ^ 23 := by decide
  have hle := le_realOf_cosPi32 ha (u := 0x00800000#32) (by decide) (by
    rw [hsmallest]
    push_cast
    exact hcos)
  rw [realOf_of_signBit_false (by decide), realOf_of_signBit_false (signBit_cosPi32 ha), hmag,
    div_le_div_iff_of_pos_right (by positivity), Nat.cast_le] at hle
  exact isSubnormal_of_one_le_expField (one_le_expField_of_le_mag hle)

/-- A dry gain other than +0 comes from a cosine of 2^−25 or more. -/
theorem isSubnormal_dryGain {m : Word} (h : MixLegal m) : isSubnormal (dryGain m) = false := by
  rw [dryGain]
  rcases mixAngle_eq_or_add_le h with heq | hle
  · rw [heq, cosPi32_half]
    decide
  · refine isSubnormal_cosPi32 (mixAngle_le h) (le_trans ?_ (one_sub_le_cosAt (mixAngle_le h)))
    have hle' : (mixAngle m : ℝ) + 2 ^ 125 ≤ 2 ^ 150 := by exact_mod_cast hle
    rw [le_sub_comm, div_le_iff₀ (by positivity)]
    norm_num at hle' ⊢
    linarith

theorem realOf_one : realOf 0x3F800000#32 = 1 := by decide +kernel

/-- What R161(b) asks of a gain word. -/
def InUnitRange (g : Word) : Prop :=
  isFinite g = true ∧ 0 ≤ realOf g ∧ realOf g ≤ 1 ∧ g ≠ 0x80000000#32 ∧ isSubnormal g = false

theorem inUnitRange_dryGain {m : Word} (h : MixLegal m) : InUnitRange (dryGain m) := by
  have ha := mixAngle_le h
  have hsign : signBit (dryGain m) = false := signBit_cosPi32 ha
  refine ⟨isFinite_cosPi32 ha, realOf_nonneg hsign, ?_, fun hneg => ?_, isSubnormal_dryGain h⟩
  · have hle := realOf_cosPi32_le ha (u := 0x3F800000#32) (by decide) (by
      rw [realOf_one, Rat.cast_one]
      exact Real.cos_le_one _)
    rwa [realOf_one] at hle
  · rw [hneg] at hsign
    exact absurd hsign (by decide)

/-- Settles O26: CosPi32's word has no sign and is nearest a cosine of 0 or of at least 2^−25; the wet gain is a dry gain. -/
theorem gainsStayInTheUnitRange : Obligations.GainsStayInTheUnitRange := by
  intro m hm g hg
  simp only [List.mem_cons, List.not_mem_nil, or_false] at hg
  obtain rfl | rfl := hg
  · exact wetGain_eq_dryGain hm ▸ inUnitRange_dryGain (mixLegal_flipSign hm)
  · exact inUnitRange_dryGain hm

/-! ### Monotonicity (R161(d)) -/

theorem mixAngle_mono {m m' : Word} (hle : realOf m ≤ realOf m') : mixAngle m ≤ mixAngle m' := by
  rw [realOf, realOf, div_le_div_iff_of_pos_right (by positivity), Int.cast_le] at hle
  unfold mixAngle
  omega

/-- Settles O28: the angle rises with the mix, and CosPi32 does not rise with the angle. -/
theorem gainsAreMonotone : Obligations.GainsAreMonotone := by
  intro m m' _ hm' hle
  have hangle := mixAngle_mono hle
  exact ⟨realOf_cosPi32_antitone (Nat.sub_le_sub_left hangle _) (Nat.sub_le _ _),
    realOf_cosPi32_antitone hangle (mixAngle_le hm')⟩

/-! ### Equal power (R161(e), R164) -/

theorem cosAt_sq_add_cosAt_sq {a : ℕ} (ha : a ≤ 2 ^ 150) : cosAt 150 (2 ^ 150 - a) ^ 2 + cosAt 150 a ^ 2 = 1 := by
  have hsin : cosAt 150 (2 ^ 150 - a) = Real.sin (Real.pi * a / 2 ^ 151) := by
    rw [← Real.cos_pi_div_two_sub, cosAt, Nat.cast_sub ha, Nat.cast_pow, Nat.cast_ofNat]
    congr 1
    ring
  rw [hsin, cosAt]
  exact Real.sin_sq_add_cos_sq _

/-- Rounding a point of the unit circle by at most 2^−24 in each coordinate changes the sum of squares by at most 2^−22:
|p² − s²| = |p − s|·|p + s|, and s + c ≤ 3/2. -/
theorem abs_sum_of_squares_sub_one_le {s c p q : ℝ} (hs : 0 ≤ s) (hc : 0 ≤ c) (hcircle : s ^ 2 + c ^ 2 = 1)
    (hp : |s - p| ≤ 1 / 2 ^ 24) (hq : |c - q| ≤ 1 / 2 ^ 24) : |p ^ 2 + q ^ 2 - 1| ≤ 1 / 2 ^ 22 := by
  have square {x y : ℝ} (hx : 0 ≤ x) (hxy : |x - y| ≤ 1 / 2 ^ 24) :
      |y ^ 2 - x ^ 2| ≤ 1 / 2 ^ 24 * (2 * x + 1 / 2 ^ 24) := by
    have hsum : |y + x| ≤ 2 * x + 1 / 2 ^ 24 := by
      rw [abs_le] at hxy ⊢
      constructor <;> linarith
    rw [sq_sub_sq, mul_comm, abs_mul, abs_sub_comm]
    exact mul_le_mul hxy hsum (abs_nonneg _) (by positivity)
  have hsc : s + c ≤ 3 / 2 := by nlinarith [sq_nonneg (s - c)]
  calc |p ^ 2 + q ^ 2 - 1| = |(p ^ 2 - s ^ 2) + (q ^ 2 - c ^ 2)| := by rw [← hcircle]; ring_nf
    _ ≤ |p ^ 2 - s ^ 2| + |q ^ 2 - c ^ 2| := abs_add_le _ _
    _ ≤ 1 / 2 ^ 24 * (2 * s + 1 / 2 ^ 24) + 1 / 2 ^ 24 * (2 * c + 1 / 2 ^ 24) := add_le_add (square hs hp) (square hc hq)
    _ ≤ 1 / 2 ^ 22 := by
      norm_num
      linarith

theorem gains_equal_power {m : Word} (h : MixLegal m) :
    |realOf (wetGain m) ^ 2 + realOf (dryGain m) ^ 2 - 1| ≤ 1 / 2 ^ 22 := by
  have ha := mixAngle_le h
  have ha' : 2 ^ 150 - mixAngle m ≤ 2 ^ 150 := Nat.sub_le _ _
  have hreal := abs_sum_of_squares_sub_one_le (cosAt_nonneg ha') (cosAt_nonneg ha) (cosAt_sq_add_cosAt_sq ha)
    (abs_cosAt_sub_cosPi32_le ha') (abs_cosAt_sub_cosPi32_le ha)
  rw [← Rat.cast_le (K := ℝ)]
  push_cast
  exact hreal

/-- Settles O29: each gain is within 2^−24 of a sine and cosine of one angle, and at the ends they are 0 and 1. -/
theorem gainsHaveEqualPower : Obligations.GainsHaveEqualPower := by
  refine ⟨fun m hm => gains_equal_power hm, fun m hm => ?_⟩
  obtain ⟨hmin, hmax, -, -⟩ := gainsAtTheEnds
  rw [Prod.mk.injEq] at hmin hmax
  have hzero : realOf 0x00000000#32 = 0 := by decide +kernel
  rcases hm with rfl | rfl
  · rw [hmin.1, hmin.2, realOf_one, hzero]
    norm_num
  · rw [hmax.1, hmax.2, realOf_one, hzero]
    norm_num

end Sys2Proof.Proofs

/-! The ends of the mix range (45_mixer.md R162, R163): a product with 1.0 and one with +0, and their sum. -/

namespace Sys2Proof.Proofs

open Sys2Proof.Machine Sys2Proof.Laws

theorem isNaN_of_isSubnormal {x : Word} (h : isSubnormal x = true) : isNaN x = false := by
  simp_all [isSubnormal, isNaN]

theorem isInf_or_isNormal {x : Word} (hnan : isNaN x = false) (hsub : isSubnormal x = false) (hzero : isZero x = false) :
    isInf x = true ∨ isNormal x = true := by
  rcases isNaN_or_isInf_or_isFinite x with h | h | h
  · exact absurd h (by simp [hnan])
  · exact Or.inl h
  · exact Or.inr ((isZero_or_isSubnormal_or_isNormal h).resolve_left (by simp [hzero, hsub]))

/-! ### The product with 1.0 -/

theorem roundHalfEven_mul_right (num den : Nat) {c : Nat} (hc : 0 < c) :
    roundHalfEven (num * c) (den * c) = roundHalfEven num den := by
  unfold roundHalfEven
  rw [Nat.mul_div_mul_right _ _ hc, Nat.mul_mod_mul_right]
  simp only [← Nat.mul_assoc, Nat.mul_lt_mul_right hc]

/-- The product with a whole number of units, over that number, rounds as the units themselves. -/
theorem rn32_mul_div (neg : Bool) (num : Nat) {c : Nat} (hc : 0 < c) : rn32 neg (num * c) c = rn32 neg num 1 := by
  have hmag : rnMag (num * c) c = rnMag num 1 := by
    rw [rnMag, rnMag, Nat.mul_div_cancel _ hc, Nat.div_one, Nat.one_mul, Nat.mul_comm c, roundHalfEven_mul_right _ _ hc]
  rw [rn32, hmag, rn32]

/-- A finite word is the rounding of its own value. -/
theorem rn32_mag {x : Word} (hx : isFinite x = true) : rn32 (signBit x) (mag x) 1 = x := by
  obtain ⟨k, n, hk, hn, hword, hmag⟩ := mag_eq_quanta x
  have hlt : k * 2 ^ 23 + n < 0x7F800000 := hword ▸ toNat_mod_lt_of_isFinite hx
  rw [hmag, rn32_quanta _ hk hn hlt]
  apply BitVec.eq_of_toNat_eq
  rw [toNat_signed _ (by omega), ← hword, signBit_eq]
  simp only [decide_eq_true_iff]
  have := x.isLt
  split <;> omega

/-- There is one zero of each sign. -/
theorem eq_zeroOf_of_isZero {x : Word} (h : isZero x = true) : x = zeroOf (signBit x) := by
  have hz := isZero_zeroOf (signBit x)
  simp only [isZero, Bool.and_eq_true, beq_iff_eq] at h hz
  exact word_ext (signBit_zeroOf _).symm (h.1.trans hz.1.symm) (h.2.trans hz.2.symm)

theorem mag_one : mag 0x3F800000#32 = 2 ^ 149 := by decide +kernel

/-- R16: 1.0 is neutral but for DAZ. -/
theorem mul32_one {x : Word} (hx : isNaN x = false) : mul32 0x3F800000#32 x = daz x := by
  have hone : daz 0x3F800000#32 = 0x3F800000#32 := by decide
  rw [mul32, hone]
  rcases isNaN_or_isInf_or_isFinite x with h | h | h
  · exact absurd h (by simp [hx])
  · rw [daz_of_isInf h, mulDazed_of_isInf (Or.inr ⟨h, by decide⟩)]
    exact eq_of_isInf (isInf_infOf _) h (by rw [signBit_infOf]; exact Bool.false_bne _)
  rcases isZero_or_isSubnormal_or_isNormal h with h0 | hn
  · rw [mulDazed_of_isZero (by decide) (isFinite_daz h) (Or.inr (isZero_daz h0))]
    exact (congrArg zeroOf (Bool.false_bne _)).trans (eq_zeroOf_of_isZero (isZero_daz h0)).symm
  · rw [daz_of_isNormal hn, mulDazed_of_nonzero (by decide) h (by decide) (isZero_of_isNormal hn), mag_one,
      Nat.mul_comm, rn32_mul_div _ _ (by positivity), show (signBit 0x3F800000#32 != signBit x) = signBit x from
        Bool.false_bne _, rn32_mag h, ftz, daz_of_isNormal hn]

theorem mul32_of_isNaN_right (a : Word) {b : Word} (hb : isNaN b = true) : mul32 a b = qnan :=
  mulDazed_of_isNaN (Or.inr (by rwa [daz_of_isNaN hb]))

/-! ### The product with +0 -/

theorem mul32_zero {y : Word} (hy : isFinite y = true) : mul32 0x00000000#32 y = zeroOf (signBit y) := by
  have hsign : (signBit (daz 0x00000000#32) != signBit (daz y)) = signBit y := by
    rw [signBit_daz, signBit_daz]
    exact Bool.false_bne _
  rw [mul32, mulDazed_of_isZero (by decide) (isFinite_daz hy) (Or.inl (by decide)), hsign]

/-- A NaN or an infinity spoils the product even with +0 (R162). -/
theorem mul32_zero_of_not_isFinite {y : Word} (hy : isFinite y = false) : mul32 0x00000000#32 y = qnan := by
  rcases isNaN_or_isInf_or_isFinite y with h | h | h
  · exact mul32_of_isNaN_right _ h
  · exact mulDazed_of_isInf_isZero (Or.inr ⟨by decide, by rwa [daz_of_isInf h]⟩)
  · exact absurd h (by simp [hy])

/-! ### The sum with a zero -/

theorem add32_of_isNaN_left {a : Word} (ha : isNaN a = true) (b : Word) : add32 a b = qnan :=
  addDazed_of_isNaN (Or.inl (by rwa [daz_of_isNaN ha]))

theorem add32_of_isNaN_right (a : Word) {b : Word} (hb : isNaN b = true) : add32 a b = qnan :=
  addDazed_of_isNaN (Or.inr (by rwa [daz_of_isNaN hb]))

theorem units_zeroOf (neg : Bool) : units (zeroOf neg) = 0 := by cases neg <;> decide

/-- R18: a zero added to an infinity or a normal word changes nothing. -/
theorem add32_zeroOf {x : Word} (hx : isInf x = true ∨ isNormal x = true) (neg : Bool) :
    add32 x (zeroOf neg) = x := by
  rw [add32, daz_of_not_isSubnormal (isSubnormal_zeroOf neg)]
  rcases hx with h | h
  · rw [daz_of_isInf h, addDazed_of_isInf_left h (Or.inl (isFinite_zeroOf neg))]
  · have hfin := isFinite_of_isNormal h
    have hmag := mag_pos (isZero_of_isNormal h)
    have hsum : units x + units (zeroOf neg) = units x := by rw [units_zeroOf, add_zero]
    have hne : units x ≠ 0 := by
      unfold units
      split <;> omega
    have hneg : decide (units x < 0) = signBit x := by
      unfold units
      cases signBit x <;> simp [hmag]
    have habs : (units x).natAbs = mag x := by
      unfold units
      split <;> simp
    rw [daz_of_isNormal h, addDazed_of_isFinite hfin (isFinite_zeroOf neg), hsum, if_neg hne, hneg, habs,
      rn32_mag hfin, ftz, daz_of_isNormal h]

/-- R18: two zeros add to −0 when both are −0. -/
theorem add32_zeroOf_zeroOf (s t : Bool) : add32 (zeroOf s) (zeroOf t) = zeroOf (s && t) := by
  cases s <;> cases t <;> decide

/-! ### The mix -/

/-- R162: exchanging the gains exchanges dry and wet, since the sum commutes (R18). -/
theorem mixWith_comm (wg dg dry wet : Word) : mixWith wg dg dry wet = mixWith dg wg wet dry := addDazed_comm _ _

section FullyDry

variable {dry wet : Word}

theorem mixWith_dry_of_isInf_or_isNormal (hdry : isInf dry = true ∨ isNormal dry = true) (hwet : isFinite wet = true) :
    mixWith 0x00000000#32 0x3F800000#32 dry wet = dry := by
  have hprod : mul32 0x3F800000#32 dry = dry := by
    rcases hdry with h | h
    · rw [mul32_one (isNaN_of_isInf h), daz_of_isInf h]
    · rw [mul32_one (isNaN_of_isFinite (isFinite_of_isNormal h)), daz_of_isNormal h]
  rw [mixWith, mul32_zero hwet, hprod, add32_zeroOf hdry]

/-- A zero or subnormal dry sample counts as the zero of its sign, and is mixed with a zero of the wet sample's sign. -/
theorem mixWith_dry_of_isZero_or_isSubnormal (hdry : isZero dry = true ∨ isSubnormal dry = true)
    (hwet : isFinite wet = true) :
    mixWith 0x00000000#32 0x3F800000#32 dry wet = zeroOf (signBit dry && signBit wet) := by
  have hnan : isNaN dry = false := by
    rcases hdry with h | h
    · exact isNaN_of_isZero h
    · exact isNaN_of_isSubnormal h
  rw [mixWith, mul32_zero hwet, mul32_one hnan, eq_zeroOf_of_isZero (isZero_daz hdry), signBit_daz,
    add32_zeroOf_zeroOf]

theorem mixWith_dry_of_isNaN (hdry : isNaN dry = true) : mixWith 0x00000000#32 0x3F800000#32 dry wet = qnan := by
  rw [mixWith, mul32_of_isNaN_right _ hdry]
  exact add32_of_isNaN_left (by decide) _

theorem mixWith_dry_of_not_isFinite (hwet : isFinite wet = false) :
    mixWith 0x00000000#32 0x3F800000#32 dry wet = qnan := by
  rw [mixWith, mul32_zero_of_not_isFinite hwet]
  exact add32_of_isNaN_right _ (by decide)

end FullyDry

/-- The product of +0 and a finite word tells the word's sign. -/
theorem mul32_zero_eq_zeroOf_iff {y : Word} (hy : isFinite y = true) (neg : Bool) :
    mul32 0x00000000#32 y = zeroOf neg ↔ signBit y = neg := by
  rw [mul32_zero hy]
  refine ⟨fun h => ?_, congrArg zeroOf⟩
  rw [← signBit_zeroOf (signBit y), h, signBit_zeroOf]

/-- Settles O39: with the gain 1.0 an infinity or a normal dry sample is kept; a zero or subnormal one is −0 exactly when
both it and the wet sample are negative. -/
theorem fullyDryMixIsTheDrySample : Obligations.FullyDryMixIsTheDrySample := by
  intro dry wet out product
  have hpos (hwet : isFinite wet = true) : product = 0x00000000#32 ↔ signBit wet = false :=
    mul32_zero_eq_zeroOf_iff hwet false
  have hneg (hwet : isFinite wet = true) : product = 0x80000000#32 ↔ signBit wet = true :=
    mul32_zero_eq_zeroOf_iff hwet true
  refine ⟨fun hnan hsub hwet hexc => ?_, ?_, fun hsub hwet => ?_, mixWith_dry_of_isNaN, mixWith_dry_of_not_isFinite⟩
  · by_cases hzero : isZero dry = true
    · have hdry := eq_zeroOf_of_isZero hzero
      have hsign : signBit dry = true → signBit wet = true := fun hs =>
        Bool.of_not_eq_false fun hw => hexc ⟨hdry.trans (congrArg zeroOf hs), (hpos hwet).2 hw⟩
      have hand : (signBit dry && signBit wet) = signBit dry := by
        cases hs : signBit dry
        · rfl
        · exact hsign hs
      calc out = zeroOf (signBit dry && signBit wet) := mixWith_dry_of_isZero_or_isSubnormal (Or.inl hzero) hwet
        _ = dry := by rw [hand, ← hdry]
    · exact mixWith_dry_of_isInf_or_isNormal (isInf_or_isNormal hnan hsub (Bool.eq_false_of_not_eq_true hzero)) hwet
  · rintro rfl hwet hprod
    have hmix := mixWith_dry_of_isZero_or_isSubnormal (dry := 0x80000000#32) (Or.inl (by decide)) hwet
    rwa [(hpos hwet).1 hprod, Bool.and_false] at hmix
  · simp only [hneg hwet, ← Bool.and_eq_true]
    exact mixWith_dry_of_isZero_or_isSubnormal (Or.inr hsub) hwet

/-- Settles O40: the fully wet mix is the fully dry mix with dry and wet exchanged. -/
theorem fullyWetMixIsTheWetSample : Obligations.FullyWetMixIsTheWetSample := by
  intro dry wet
  rw [mixWith_comm]
  exact fullyDryMixIsTheDrySample wet dry

end Sys2Proof.Proofs

/-! Proofs of the statements of 46_block_pipeline.md. This part: what NOP, BSTART and SMP answer and write (R180 to R182), and
that every step and every meaning has one successor state (R187). -/

namespace Sys2Proof.Proofs

open Sys2Proof.Machine Sys2Proof.Laws

/-! ### Totality (R187) -/

/-- An outcome has at most one next state. -/
theorem existsUnique_next {o : Host.Outcome State Fault Refusal} {t : State} (h : o = .next t) : ∃! t, o = .next t :=
  ⟨t, h, fun _ ht => (Host.Outcome.next.inj (h.symm.trans ht)).symm⟩

theorem step_of_fetch_none {s s' : State} (hfetch : s.fetch = (none, s')) : step s = .next s' := by
  simp only [step, hfetch]

/-- Settles O12: whether a step fetches a transaction or none, and whether a command is legal or not, it ends in `.next`. -/
theorem everyCommandCompletes : Obligations.EveryCommandCompletes := by
  refine ⟨fun s => ?_, fun i s => existsUnique_next (exec_eq i s)⟩
  rcases hfetch : s.fetch with ⟨_ | t, s'⟩
  · exact existsUnique_next (step_of_fetch_none hfetch)
  · exact existsUnique_next (step_of_fetch hfetch)

/-! ### NOP and BSTART (R180, R181) -/

/-- Settles O15: NOP commits S as it is, and its own CMD word is 0 on both ports. -/
theorem nopOnlyAnswersZero : Obligations.NopOnlyAnswersZero := by
  refine ⟨fun port s => exec_eq (.nop port) s, fun t port => ?_⟩
  rw [decode_eq_command_iff]
  exact ⟨fun ⟨_, hcmd, hport, _⟩ => ⟨hcmd.symm, hport.symm⟩, fun ⟨hcmd, hport⟩ => ⟨rfl, hcmd.symm, hport.symm, trivial⟩⟩

/-- Settles O22: the effect of BSTART, committed on the port where it is legal. -/
theorem bstartSnapshotsParameters : Obligations.BstartSnapshotsParameters := exec_eq (.bstart .audio)

/-! ### SMP (R182) -/

/-- R135, R151: the Crush and Bitmask stages with their loops in closed form. -/
theorem shapeWord_eq_masked {cfg : Snapshot} (hcfg : cfg.Legal) (x : Word) : shapeWord cfg x =
    let y := if cfg.crushMethod = 0#32 then quantizeBy (qtab cfg.bitDepth.toNat) x else x &&& tmask cfg.bitDepth.toNat
    if cfg.masksEnabled = 0#32 then y else y &&& ~~~cfg.maskVec := by
  obtain ⟨-, -, ⟨hbd2, -⟩, -⟩ := hcfg
  rw [shapeWord, truncate_eq_and_tmask x hbd2]
  by_cases hmasks : cfg.masksEnabled = 0#32
  · rw [bitmask_disabled hmasks, if_pos hmasks]
  · rw [bitmask_enabled hmasks, if_neg hmasks]

/-- R130, R131: an SMP leaves the quantum of CFG's bit depth in the cache in Quantize mode, and the cache as it was in the
other. -/
theorem smp_cache {b : Block} (hb : b.Inv) (c : Channel) (x : Word) :
    ((b.smp c x).1.qcBd, (b.smp c x).1.qcQ) =
      if b.cfg.crushMethod = 0#32 then (b.cfg.bitDepth.toNat, qtab b.cfg.bitDepth.toNat) else (b.qcBd, b.qcQ) := by
  obtain ⟨-, ⟨-, -, ⟨hbd2, -⟩, -⟩, -, -, hcache⟩ := hb
  rw [smp_qcBd, smp_qcQ]
  split
  next hcm => rw [crush_quantize hcm, quantize_eq hcache x (by omega)]
  next hcm => rw [crush_truncate hcm]

/-- R121: an SMP advances the phase of its channel modulo CFG.DS_FACTOR. -/
theorem toNat_smp_ph {b : Block} (hcfg : b.cfg.Legal) (c : Channel) (x : Word) :
    ((b.smp c x).1.chan c).ph.toNat = ((b.chan c).ph.toNat + 1) % b.cfg.dsFactor.toNat := by
  obtain ⟨-, ⟨hds1, hds16⟩, -⟩ := hcfg
  rw [smp_chan_self, toNat_advance_ph _ hds1 hds16, hold_ph]

/-- Settles O30: the answer mixes with the word the channel then holds, which is the shaped sample at phase 0; the rest is the
frame of `smp`. -/
theorem smpRunsTheFourStages : Obligations.SmpRunsTheFourStages := by
  intro s c x hinv cfg y1 y2 w
  have ⟨_, hcfg, _⟩ := hinv
  have hheld : ((s.blk.smp c x).1.chan c).held = w := by rw [smp_held hinv, shapeWord_eq_masked hcfg]
  have hresp : (s.blk.smp c x).2 = mixWith s.blk.wg s.blk.dg x w := by rw [smp_resp_held, hheld]
  exact ⟨s.commit (s.blk.smp c x), exec_eq (.smp .audio c x) s, hresp, hheld, toNat_smp_ph hcfg c x,
    fun d hd => smp_chan_other s.blk x hd, smp_p _ c x, smp_cfg _ c x, smp_wg _ c x, smp_dg _ c x, smp_cache hinv c x,
    rfl, rfl, rfl⟩

end Sys2Proof.Proofs

/-! Channel independence (R183): what one channel answers depends on CFG, the gains and that channel's own state, which the
samples of the other leave alone. So the two arrays of `pblock` (R186) are answered apart. -/

namespace Sys2Proof.Proofs

open Sys2Proof.Machine Sys2Proof.Laws

/-- Two blocks alike in all that the answers of channel `c` can depend on inside a block: CFG, the gains and the channel. -/
structure AgreeOn (c : Channel) (b b' : Block) : Prop where
  cfg : b.cfg = b'.cfg
  wg : b.wg = b'.wg
  dg : b.dg = b'.dg
  chan : b.chan c = b'.chan c

theorem agreeOn_refl (c : Channel) (b : Block) : AgreeOn c b b := ⟨rfl, rfl, rfl, rfl⟩

section
variable {c d : Channel} {b b' : Block}

/-- A sample of another channel is not seen by channel `c`. -/
theorem agreeOn_smp_other (hd : d ≠ c) (h : AgreeOn c b b') (x : Word) : AgreeOn c (b.smp d x).1 b' where
  cfg := by rw [smp_cfg, h.cfg]
  wg := by rw [smp_wg, h.wg]
  dg := by rw [smp_dg, h.dg]
  chan := by rw [smp_chan_other _ _ hd.symm, h.chan]

/-- R132: the cache, which may differ, does not show in the shaped sample. -/
theorem shape_of_agreeOn (hb : b.Inv) (hb' : b'.Inv) (h : AgreeOn c b b') (x : Word) : (b.shape x).2 = (b'.shape x).2 := by
  obtain ⟨-, hcfg, -, -, hcache⟩ := hb
  obtain ⟨-, hcfg', -, -, hcache'⟩ := hb'
  rw [shape_eq_shapeWord hcfg hcache, shape_eq_shapeWord hcfg' hcache', h.cfg]

/-- A sample of channel `c` keeps the agreement on it and is answered alike. -/
theorem smp_of_agreeOn (hb : b.Inv) (hb' : b'.Inv) (h : AgreeOn c b b') (x : Word) :
    AgreeOn c (b.smp c x).1 (b'.smp c x).1 ∧ (b.smp c x).2 = (b'.smp c x).2 := by
  have hshape := shape_of_agreeOn hb hb' h x
  refine ⟨⟨?_, ?_, ?_, ?_⟩, ?_⟩
  · rw [smp_cfg, smp_cfg, h.cfg]
  · rw [smp_wg, smp_wg, h.wg]
  · rw [smp_dg, smp_dg, h.dg]
  · rw [smp_chan_self, smp_chan_self, h.chan, h.cfg, hshape]
  · rw [smp_resp, smp_resp, h.wg, h.dg, h.chan, hshape]

end

/-! ### Interleaved samples (R183) -/

theorem serve_smpOn_cons (b : Block) (c : Channel) (x : Word) (ts : List Transaction) :
    (b.serve (smpOn c x :: ts)).2 = (b.smp c x).2 :: ((b.smp c x).1.serve ts).2 := by
  rw [Block.serve, perform_smpOn]

theorem serve_smpStream_cons (b : Block) (c : Channel) (x : Word) (l : List (Channel × Word)) :
    (b.serve (smpStream ((c, x) :: l))).2 = (b.smp c x).2 :: ((b.smp c x).1.serve (smpStream l)).2 :=
  serve_smpOn_cons b c x (smpStream l)

theorem responsesOf_cons_self (c : Channel) (x r : Word) (l : List (Channel × Word)) (rs : List Word) :
    responsesOf c ((c, x) :: l) (r :: rs) = r :: responsesOf c l rs := by
  simp [responsesOf]

theorem responsesOf_cons_other {c d : Channel} (hd : d ≠ c) (x r : Word) (l : List (Channel × Word)) (rs : List Word) :
    responsesOf c ((d, x) :: l) (r :: rs) = responsesOf c l rs := by
  simp [responsesOf, hd]

/-- From blocks that agree on a channel, its samples are answered alike among those of both channels and alone. -/
theorem responsesOf_serve {c : Channel} (l : List (Channel × Word)) {b b' : Block} (hb : b.Inv) (hb' : b'.Inv)
    (h : AgreeOn c b b') : responsesOf c l (b.serve (smpStream l)).2 =
      (b'.serve (smpStream (l.filter fun cx => cx.1 == c))).2 := by
  induction l generalizing b b' with
  | nil => rfl
  | cons cx l ih =>
    obtain ⟨d, x⟩ := cx
    rw [serve_smpStream_cons]
    by_cases hd : d = c
    · subst hd
      obtain ⟨hnext, hresp⟩ := smp_of_agreeOn hb hb' h x
      rw [responsesOf_cons_self, List.filter_cons_of_pos (by simp), serve_smpStream_cons, hresp,
        ih (smp_inv hb d x) (smp_inv hb' d x) hnext]
    · rw [responsesOf_cons_other hd, List.filter_cons_of_neg (by simpa using hd)]
      exact ih (smp_inv hb d x) hb' (agreeOn_smp_other hd h x)

/-- Settles O50: a block agrees with itself on each channel. -/
theorem channelsAreIndependent : Obligations.ChannelsAreIndependent :=
  fun b c l hb => responsesOf_serve l hb hb (agreeOn_refl c b)

/-! ### The block call (R186) -/

theorem serve_append_snd (ts us : List Transaction) (b : Block) :
    (b.serve (ts ++ us)).2 = (b.serve ts).2 ++ ((b.serve ts).1.serve us).2 := by
  induction ts generalizing b with
  | nil => rfl
  | cons t ts ih => exact congrArg (List.cons _) (ih _)

theorem length_serve (ts : List Transaction) (b : Block) : (b.serve ts).2.length = ts.length := by
  induction ts generalizing b with
  | nil => rfl
  | cons t ts ih => exact congrArg Nat.succ (ih _)

/-- A run of samples of another channel is not seen by channel `c`. -/
theorem agreeOn_serve_other {c d : Channel} (hd : d ≠ c) (xs : List Word) {b b' : Block} (h : AgreeOn c b b') :
    AgreeOn c (b.serve (xs.map (smpOn d))).1 b' := by
  induction xs generalizing b with
  | nil => exact h
  | cons x xs ih =>
    rw [List.map_cons, Block.serve, perform_smpOn]
    exact ih (agreeOn_smp_other hd h x)

/-- From blocks that agree on a channel, a run of its samples is answered alike. -/
theorem serve_of_agreeOn {c : Channel} (xs : List Word) {b b' : Block} (hb : b.Inv) (hb' : b'.Inv)
    (h : AgreeOn c b b') : (b.serve (xs.map (smpOn c))).2 = (b'.serve (xs.map (smpOn c))).2 := by
  induction xs generalizing b b' with
  | nil => rfl
  | cons x xs ih =>
    obtain ⟨hnext, hresp⟩ := smp_of_agreeOn hb hb' h x
    rw [List.map_cons, serve_smpOn_cons, serve_smpOn_cons, hresp, ih (smp_inv hb c x) (smp_inv hb' c x) hnext]

/-- The answers of `pblock` after that of its BSTART: those of the left samples, then those of the right ones. -/
theorem tail_serve_pblock (b : Block) (l r : List Word) : (b.serve (pblock l r)).2.tail =
    (b.bstart.1.serve (l.map (smpOn .left))).2 ++
      ((b.bstart.1.serve (l.map (smpOn .left))).1.serve (r.map (smpOn .right))).2 := by
  rw [pblock, Block.serve, perform_bstart, List.tail_cons, serve_append_snd]

/-- Settles O53: the answers split at the length of the left array, and the left samples leave the right channel alone. -/
theorem pblockTreatsEachChannelAlone : Obligations.PblockTreatsEachChannelAlone := by
  intro b l r hb _
  have hlen : (b.bstart.1.serve (l.map (smpOn .left))).2.length = l.length := by rw [length_serve, List.length_map]
  have hright : AgreeOn .right (b.bstart.1.serve (l.map (smpOn .left))).1 b.bstart.1 :=
    agreeOn_serve_other (by decide) l (agreeOn_refl _ _)
  simp only [Block.runPblock, tail_serve_pblock]
  refine ⟨List.take_left' hlen, ?_⟩
  rw [List.drop_left' hlen]
  exact serve_of_agreeOn r (serve_inv _ (bstart_inv hb)) (bstart_inv hb) hright

end Sys2Proof.Proofs

/-! Proofs of the statements of 60_exceptions.md: what a port's commands may change (R207, R212), and that S is held where no
command arrives (R211). -/

namespace Sys2Proof.Proofs

open Sys2Proof.Machine Sys2Proof.Laws

/-! ### What each port may change (R207, R212) -/

/-- `b'` differs from `b` only where the agent on `port` may write: not in P for the audio actor, and only in P for the
control actor. -/
def ConfinedTo (port : Port) (b b' : Block) : Prop :=
  (port = .audio → b'.p = b.p) ∧ (port = .control → b' = { b with p := b'.p })

theorem confinedTo_self (port : Port) (b : Block) : ConfinedTo port b b := ⟨fun _ => rfl, fun _ => rfl⟩

/-- A command legal on the Audio port is not the one that writes P (R63). -/
theorem effect_p_of_audio {i : Instr} (hw : i.wellFormed = true) (hport : i.port = .audio) (b : Block) :
    (b.effect i).1.p = b.p := by
  by_contra hne
  obtain ⟨hp, -⟩ := writtenBy_effect hw b
  obtain ⟨pid, d, rfl⟩ := hp hne
  cases hport

/-- A command legal on the Control port is NOP, PWR or PRD, none of which writes outside P. -/
theorem effect_of_control {i : Instr} (hw : i.wellFormed = true) (hport : i.port = .control) (b : Block) :
    (b.effect i).1 = { b with p := (b.effect i).1.p } := by
  cases i with
  | nop => rfl
  | pwr => rfl
  | prd => rfl
  | bstart =>
    obtain rfl := hport
    cases hw
  | smp =>
    obtain rfl := hport
    cases hw

/-- The decoder answers a command of the transaction's own port (R89), and an illegal one writes nothing (R87). -/
theorem perform_confinedTo (b : Block) (t : Transaction) : ConfinedTo t.port b (b.perform t).1 := by
  unfold Block.perform
  cases hdecode : decode t with
  | command i =>
    obtain ⟨hw, -, hport, -⟩ := decode_eq_command_iff.1 hdecode
    rw [← hport]
    exact ⟨fun h => effect_p_of_audio hw h b, fun h => effect_of_control hw h b⟩
  | illegal => exact confinedTo_self t.port b

/-- The transaction that arrives is on the port that SCHEDULE names. -/
theorem head?_schedule_of_fetch {s s' : State} {t : Transaction} (hfetch : s.fetch = (some t, s')) :
    s.schedule.head? = some t.port := by
  obtain ⟨-, hnone, -⟩ | ⟨_, _, -, -, hnone, -⟩ | ⟨port, rest, r, q, hsched, -, ht, -⟩ := fetch_cases hfetch
  · cases hnone
  · cases hnone
  · obtain rfl := Option.some.inj ht
    rw [hsched, List.head?_cons]

/-- A step serves at most the port that SCHEDULE names, and changes S only where that port may. -/
theorem step_confinedTo {s t : State} (h : step s = .next t) {port : Port} (hport : s.schedule.head? = some port) :
    ConfinedTo port s.blk t.blk := by
  obtain ⟨-, rfl⟩ | ⟨u, hu, rfl⟩ := step_cases h
  · rw [fetch_blk]
    exact confinedTo_self port s.blk
  · have hhead : s.schedule.head? = some u.port := head?_schedule_of_fetch (Prod.ext hu rfl)
    obtain rfl : port = u.port := Option.some.inj (hport.symm.trans hhead)
    exact perform_confinedTo s.blk u

/-- Settles O59: the two halves of what a step on each port is confined to. -/
theorem portsWriteOnlyTheirOwnState : Obligations.PortsWriteOnlyTheirOwnState := by
  intro s t h
  refine ⟨fun haudio => ?_, fun hcontrol => ?_⟩
  · obtain ⟨hp, -⟩ := step_confinedTo h haudio
    exact hp rfl
  · obtain ⟨-, hrest⟩ := step_confinedTo h hcontrol
    exact hrest rfl

/-! ### Where no command arrives (R211) -/

/-- With SCHEDULE used up, or naming a port with an empty stream, nothing arrives and at most that entry is passed over. -/
theorem fetch_of_no_arrival {s : State}
    (h : s.schedule = [] ∨ ∃ port rest, s.schedule = port :: rest ∧ s.stream port = []) :
    s.fetch = (none, { s with schedule := s.schedule.tail }) := by
  obtain hsched | ⟨port, rest, hsched, hstream⟩ := h
  · obtain ⟨blk, resp, control, audio, schedule⟩ := s
    obtain rfl : schedule = [] := hsched
    rfl
  · simp only [State.fetch, hsched, hstream, List.tail_cons]

/-- Settles O11: a step that fetches nothing ends in the state of the fetch. -/
theorem idleStepHoldsTheState : Obligations.IdleStepHoldsTheState :=
  fun _ h => step_of_fetch_none (fetch_of_no_arrival h)

end Sys2Proof.Proofs

/-! Proofs of the statements of 70_reset_and_hazards.md: the block is open after RESET (R221), since RESET writes what a BSTART
at the default parameters would. -/

namespace Sys2Proof.Proofs

open Sys2Proof.Machine Sys2Proof.Laws

/-! ### RESET as a BSTART at the defaults -/

/-- R51: the reset CFG is the snapshot of the reset P; no mask register is set. -/
theorem snapshot_reset : Params.reset.snapshot = Snapshot.reset := by
  have hmasks : maskVecOf Params.reset.mask = 0#32 := by decide
  rw [Params.snapshot, hmasks]
  rfl

/-- R221: a BSTART right after RESET changes nothing. The snapshot and the gains are already written, the phases are 0. -/
theorem bstart_reset : Block.reset.bstart = (Block.reset, 0#32) := by
  obtain ⟨hwg, hdg⟩ := reset_gainsOfCfg
  calc Block.reset.bstart
    _ = ({ Block.reset with cfg := Params.reset.snapshot }.writeGains, 0#32) := rfl
    _ = (Block.reset.writeGains, 0#32) := by rw [snapshot_reset, show Snapshot.reset = Block.reset.cfg from rfl]
    _ = (Block.reset, 0#32) := by rw [Block.writeGains, ← hwg, ← hdg]

/-! ### An SMP right after RESET -/

/-- R221: with masks enabled and none active, the reset CFG shapes a sample by Quantize at the full bit depth alone. -/
theorem shapeWord_reset (x : Word) : shapeWord Snapshot.reset x = quantizeBy (qtab 24) x := by
  have henabled : Snapshot.reset.masksEnabled ≠ 0#32 := by decide
  calc shapeWord Snapshot.reset x
    _ = quantizeBy (qtab 24) x &&& ~~~(0#32) := bitmask_enabled henabled _
    _ = quantizeBy (qtab 24) x := by rw [BitVec.not_zero, BitVec.and_allOnes]

/-- R221: at phase 0 and with the gains of mix +1, the answer is the fully wet mix of the sample and its Quantize. -/
theorem smp_resp_reset (c : Channel) (x : Word) :
    (Block.reset.smp c x).2 = mixWith 0x3F800000#32 0x00000000#32 x (quantizeBy (qtab 24) x) := by
  have hph : (Block.reset.chan c).ph = 0#4 := by cases c <;> rfl
  have hheld : ((Block.reset.smp c x).1.chan c).held = quantizeBy (qtab 24) x := by
    rw [smp_held (b := Block.reset) resetStateIsLegal, if_pos hph]
    exact shapeWord_reset x
  rw [smp_resp_held, hheld]
  rfl

/-- V-SMP2: Quantize at the full bit depth is not the identity, and the fully wet mix does not undo it. -/
theorem fullyWetMix_quantize_quarter :
    mixWith 0x3F800000#32 0x00000000#32 0x3E800000#32 (quantizeBy (qtab 24) 0x3E800000#32) = 0x3E7FFFFE#32 := by
  decide +kernel

/-- Settles O54: the BSTART leaves the reset block as it is, and an SMP commits the answer of that block. -/
theorem blockIsOpenAfterReset : Obligations.BlockIsOpenAfterReset := by
  have hexec (c : Channel) (x : Word) :
      exec (.smp .audio c x) State.reset = .next (State.reset.commit (Block.reset.smp c x)) := exec_eq (.smp .audio c x) _
  refine ⟨fun ts => ?_, fun c x => ⟨_, hexec c x, smp_resp_reset c x⟩, ⟨_, hexec _ _, ?_⟩⟩
  · rw [Block.serve, perform_bstart, bstart_reset, List.tail_cons]
  · exact (smp_resp_reset .left 0x3E800000#32).trans fullyWetMix_quantize_quarter

end Sys2Proof.Proofs
